-- ==== Sys2Proof/Word.lean ====
section
/-! DEFINITION. The two storage widths (00_scope.md R6, R7). -/

namespace Sys2Proof

/-- `Word32`: the contents of a register (R7, R21). -/
abbrev Word := BitVec 32

/-- `Byte`: the contents of a memory cell (R7, R50), and the opcode field of a record (R70). -/
abbrev Byte := BitVec 8

end Sys2Proof
end

