-- ==== Sys2Proof/Config.lean ====
section
/-! DEFINITION. What the spec leaves to the implementation and the model leaves free (00_scope.md R6, 42_arithmetic.md R131). The other open parameters, `MEM_SIZE`, `INIT` and the program, are inputs of each run: they stand in State, so a statement about every state is a statement about every value of them. -/

namespace Sys2Proof

/-- The sign of an exact integer. Three signs, so that a heuristic that tells zero from positive is
covered too. DEDUCED, log 8. -/
inductive Sign where
  | neg | zero | pos
  deriving DecidableEq, Repr

/-- `OVF_ADD` of R131, as a function of the signs of `a`, `b` and `r` alone. No body: the formula is not
in the spec (92_eei_decisions.md D4, log 8). -/
opaque Config.ovfAdd : Sign → Sign → Sign → Bool

/-- `OVF_SUB` of R131, as a function of the signs of `a`, `b` and `r` alone. No body: the formula is not
in the spec (92_eei_decisions.md D4, log 8). -/
opaque Config.ovfSub : Sign → Sign → Sign → Bool

/-- `NREG`, the number of general registers (R6). -/
abbrev Config.nreg : Nat := 8

/-- `MEM_SIZE` of the reference profile (R6, R14). DESIGN CHOICE, log 2: used by `State.reset` only. -/
def Config.referenceMemSize : Nat := 256

end Sys2Proof
end

