-- ==== Sys2Proof/Syntax.lean ====
section
/-! DEFINITION. Operand tokens, instruction records, and the instructions they stand for (30_encoding.md R70, R75, R82, R85, R87). -/

namespace Sys2Proof

/-- The four shapes of an operand token (R75). -/
inductive Token where
  | num (v : Int)
  | reg (i : Nat)
  | hex (h : String)
  | text (s : String)
  deriving DecidableEq, Repr

/-- The instruction record (R70): `ops[0]` is the size tag, `ops[1..]` the operands. -/
structure Record where
  opcode : Byte
  ops    : List Token
  mnem   : String
  deriving DecidableEq, Repr

/-- The program store: `N` records indexed from 0 (10_state.md R38). -/
abbrev Program := List Record

/-- The six mnemonics the core recognises (R72). -/
inductive Mnemonic where
  | mov | add | sub | cmp | jmp | je
  deriving DecidableEq, Repr

/-- The named checks of R85. -/
inductive Check where
  | wfTag | wfArity | wfToken | wfReg | wfImm | wfDest
  deriving DecidableEq, Repr

/-- One constructor per row of the opcode table (R87). The operands keep their token shape: they are
resolved when the instruction executes (R76, R80). The size tag and the opcode byte take no part (R71, R73).
`other` is the table's fallback row `any_other_mnemonic`, with the offending mnemonic (R102, log 12). -/
inductive Instr where
  | mov (op1 op2 : Token)
  | add (op1 op2 : Token)
  | sub (op1 op2 : Token)
  | cmp (op1 op2 : Token)
  | jmp (op1 : Token)
  | je (op1 : Token)
  | other (mnem : String)
  deriving DecidableEq, Repr

/-- `I.ops[1..]` of the instruction; the operands of an unrecognised mnemonic take no part (R102). -/
def Instr.operands : Instr → List Token
  | .mov a b => [a, b]
  | .add a b => [a, b]
  | .sub a b => [a, b]
  | .cmp a b => [a, b]
  | .jmp a => [a]
  | .je a => [a]
  | .other _ => []

/-- The token with a destination role (R82): `op2` of `mov`, `add` and `sub`. -/
def Instr.destToken : Instr → Option Token
  | .mov _ b => some b
  | .add _ b => some b
  | .sub _ b => some b
  | .cmp _ _ => none
  | .jmp _ => none
  | .je _ => none
  | .other _ => none

end Sys2Proof
end

