-- ==== Sys2Proof/Machine/Literals.lean ====
section
/-! DEFINITION. The values of literal tokens and the destination index of a token (30_encoding.md R77, R78, R80). Nothing here reads the state. -/

namespace Sys2Proof

/-- The worth of a hexadecimal digit (R77). -/
def hexDigit (c : Char) : Option Nat :=
  if '0' ≤ c ∧ c ≤ '9' then some (c.toNat - 48)
  else if 'a' ≤ c ∧ c ≤ 'f' then some (c.toNat - 87)
  else if 'A' ≤ c ∧ c ≤ 'F' then some (c.toNat - 55)
  else none

/-- The worth of a decimal digit (R78). -/
def decDigit (c : Char) : Option Nat :=
  if '0' ≤ c ∧ c ≤ '9' then some (c.toNat - 48) else none

/-- The value of a digit string read most significant digit first, after digits worth `acc`. -/
def digitsValue (base : Nat) (digit : Char → Option Nat) (acc : Nat) : List Char → Option Nat
  | [] => some acc
  | c :: cs =>
    match digit c with
    | some d => digitsValue base digit (base * acc + d) cs
    | none => none

/-- The value of a non-empty digit string; none if it is empty or holds another character. -/
def numeral (base : Nat) (digit : Char → Option Nat) (cs : List Char) : Option Nat :=
  if cs.isEmpty then none else digitsValue base digit 0 cs

/-- `HexValue` (R77). -/
def hexValue (h : String) : Option Nat := numeral 16 hexDigit h.toList

/-- `DecValue` on the characters of the token: `[+-]?[0-9]+` (R78). -/
def decValueChars : List Char → Option Int
  | '-' :: ds => Option.map (fun n : Nat => -(n : Int)) (numeral 10 decDigit ds)
  | '+' :: ds => Option.map (fun n : Nat => (n : Int)) (numeral 10 decDigit ds)
  | ds => Option.map (fun n : Nat => (n : Int)) (numeral 10 decDigit ds)

/-- `DecValue` (R78); none is a malformed operand token. -/
def decValue (s : String) : Option Int := decValueChars s.toList

/-- The value of a literal token; none for a register reference and for a malformed token. -/
def literalValue : Token → Option Int
  | .num v => some v
  | .reg _ => none
  | .hex h => Option.map (fun n : Nat => (n : Int)) (hexValue h)
  | .text s => decValue s

/-- `DestIndex` (R80): it never reads a register. None is a malformed token. -/
def destOf : Token → Option Int
  | .reg i => some i
  | .num v => some v
  | .hex h => literalValue (.hex h)
  | .text s => literalValue (.text s)

end Sys2Proof
end

