-- ==== Sys2Proof/Machine/Checks.lean ====
section
/-! DEFINITION. The four checks of 30_encoding.md R85 that concern operand tokens. WF-tag and WF-arity concern the record and are made where it is decoded (Decode.lean). -/

namespace Sys2Proof

/-- WF-token (R85, R78). -/
def tokenOk : Token → Bool
  | .num _ => true
  | .reg _ => true
  | .hex h => (hexValue h).isSome
  | .text s => (decValue s).isSome

/-- WF-reg (R85). -/
def regOk : Token → Bool
  | .reg i => decide (i < Config.nreg)
  | _ => true

/-- The range of WF-imm: `[-2^31, 2^32 - 1]` (R84). -/
def immInRange (v : Int) : Bool := decide (-2147483648 ≤ v ∧ v ≤ 4294967295)

/-- WF-imm (R84, R85). -/
def immOk (t : Token) : Bool :=
  match literalValue t with
  | some v => immInRange v
  | none => true

/-- The destination index selects a register or a cell: `0 <= d < 8 + MEM_SIZE` (20_memory.md R51, R54). -/
def destInSpace (memSize : Nat) (d : Int) : Bool := decide (0 ≤ d ∧ d < Config.nreg + memSize)

/-- WF-dest (R85). -/
def destOk (memSize : Nat) (t : Token) : Bool :=
  match destOf t with
  | some d => destInSpace memSize d
  | none => false

/-- The first check the instruction's operands fail, in the order of R85's table; none where all pass.
An unrecognised mnemonic is exempt (R85). -/
def Instr.failedCheck (memSize : Nat) (i : Instr) : Option Check :=
  if !i.operands.all tokenOk then some .wfToken
  else if !i.operands.all regOk then some .wfReg
  else if !i.operands.all immOk then some .wfImm
  else if !i.destToken.all (destOk memSize) then some .wfDest
  else none

end Sys2Proof
end

