-- ==== Sys2Proof/WellFormed.lean ====
section
/-! DEFINITION. What a well-formed instruction is (30_encoding.md R85): the operand checks of Machine/Checks.lean, and for the fallback row a mnemonic that is none of the six. -/

namespace Sys2Proof

/-- The mnemonics the core recognises, as strings (R72). -/
def recognisedMnemonics : List String := ["mov", "add", "sub", "cmp", "jmp", "je"]

/-- `other m` stands for a record only where `m` is not recognised (R72, R87). -/
def Instr.mnemonicOk : Instr → Bool
  | .mov _ _ => true
  | .add _ _ => true
  | .sub _ _ => true
  | .cmp _ _ => true
  | .jmp _ => true
  | .je _ => true
  | .other m => !recognisedMnemonics.contains m

/-- A well-formed instruction for a memory of `memSize` cells (R85). -/
abbrev Instr.WellFormed (memSize : Nat) (i : Instr) : Prop :=
  i.failedCheck memSize = none ∧ i.mnemonicOk = true

end Sys2Proof
end

