-- ==== Sys2Proof/Decode.lean ====
section
/-! DEFINITION. From a record to an instruction and back (30_encoding.md R70 to R74, R82, R87), and the well-formedness of records and programs (R85). The decoder is total: it answers an instruction or the name of the check the record fails. The hardware decodes no bytes (00_scope.md R3, R5): `decodeTableWord` reads the model's own transport form (log 11). -/

namespace Sys2Proof

/-- Exact, case-sensitive comparison with the six strings (R72). -/
def Mnemonic.ofText (s : String) : Option Mnemonic :=
  if s = "mov" then some .mov
  else if s = "add" then some .add
  else if s = "sub" then some .sub
  else if s = "cmp" then some .cmp
  else if s = "jmp" then some .jmp
  else if s = "je" then some .je
  else none

/-- The number of operands after the size tag (R82). -/
def Mnemonic.operandCount : Mnemonic → Nat
  | .mov => 2
  | .add => 2
  | .sub => 2
  | .cmp => 2
  | .jmp => 1
  | .je => 1

/-- The instruction of a recognised mnemonic and its operands, the size tag already stripped (R73, R82);
another number of operands fails WF-arity. -/
def decodeOperands : Mnemonic → List Token → Except Check Instr
  | .mov, [a, b] => .ok (.mov a b)
  | .add, [a, b] => .ok (.add a b)
  | .sub, [a, b] => .ok (.sub a b)
  | .cmp, [a, b] => .ok (.cmp a b)
  | .jmp, [a] => .ok (.jmp a)
  | .je, [a] => .ok (.je a)
  | _, _ => .error .wfArity

/-- Decoding: the mnemonic alone selects the operation (R72, R87), the opcode byte is not read (R71), the size
tag is stripped and never interpreted (R73). The mnemonic comes first: the operands of an unrecognised one
are not looked at (40_sequencer.md R102). -/
def decode (r : Record) : Except Check Instr :=
  match Mnemonic.ofText r.mnem with
  | none => .ok (.other r.mnem)
  | some m =>
    match r.ops with
    | [] => .error .wfTag
    | _ :: args => decodeOperands m args

/-- The record of an instruction, with any opcode byte and any size tag: both are ignored (R71, R73). -/
def encode (opcode : Byte) (tag : Token) : Instr → Record
  | .mov a b => { opcode := opcode, ops := [tag, a, b], mnem := "mov" }
  | .add a b => { opcode := opcode, ops := [tag, a, b], mnem := "add" }
  | .sub a b => { opcode := opcode, ops := [tag, a, b], mnem := "sub" }
  | .cmp a b => { opcode := opcode, ops := [tag, a, b], mnem := "cmp" }
  | .jmp a => { opcode := opcode, ops := [tag, a], mnem := "jmp" }
  | .je a => { opcode := opcode, ops := [tag, a], mnem := "je" }
  | .other m => { opcode := opcode, ops := [tag], mnem := m }

/-- The check of R85 the record fails, none where it passes all of them. -/
def Record.failedCheck (memSize : Nat) (r : Record) : Option Check :=
  match decode r with
  | .ok i => i.failedCheck memSize
  | .error c => some c

/-- The first record of the program that fails a check, with the check's name (R85, R86). -/
def Program.defectFrom (memSize : Nat) : Nat → Program → Option (Nat × Check)
  | _, [] => none
  | k, r :: rest =>
    match r.failedCheck memSize with
    | some c => some (k, c)
    | none => Program.defectFrom memSize (k + 1) rest

/-- Why the program is refused; none where it is well-formed (R85, R86). -/
def Program.defect (memSize : Nat) (p : Program) : Option (Nat × Check) :=
  Program.defectFrom memSize 0 p

/-- A well-formed program: every record passes every check (R85). -/
abbrev Program.WellFormed (memSize : Nat) (p : Program) : Prop := Program.defect memSize p = none

/-- The characters of a word of `nbits` bits, eight bits a character, the first in the least significant bits
(log 11). -/
def tableText (nbits w : Nat) : String :=
  String.ofList ((List.range (nbits / 8)).map fun k => Char.ofNat (w / 2 ^ (8 * k) % 256))

/-- DESIGN CHOICE, log 11: the record a table word stands for. The table fixes of a row nothing but its
mnemonic, so the word's bytes are the mnemonic's characters; the size tag and the operands are the zero token,
as many as the mnemonic takes. -/
def tableRecord (nbits w : Nat) : Record where
  opcode := 0
  ops := match Mnemonic.ofText (tableText nbits w) with
    | some m => List.replicate (1 + m.operandCount) (.num 0)
    | none => []
  mnem := tableText nbits w

/-- What the decoder reads from a table word in the model's transport form (log 11). -/
def decodeTableWord (nbits w : Nat) : Option Instr :=
  match decode (tableRecord nbits w) with
  | .ok i => some i
  | .error _ => none

end Sys2Proof
end

