-- ==== Sys2Proof/Machine/State.lean ====
section
/-! DEFINITION. The state of the core as plain data (10_state.md R20 to R44), why a step can stop without a next state, and the state after reset. -/

namespace Sys2Proof.Machine

/-- The four flags, four independent booleans (R26). -/
structure Flags where
  zf : Bool
  cf : Bool
  of : Bool
  nf : Bool
  deriving DecidableEq, Repr

/-- Why the run halted (R33). -/
inductive HaltCause where
  /-- `Halted(End)`: `ip` was out of bounds at fetch (40_sequencer.md R101). -/
  | endOfProgram
  /-- `Halted(Unsupported(m))`: the fetched record's mnemonic is not one of the six (40_sequencer.md R102). -/
  | unsupported (mnem : String)
  deriving DecidableEq, Repr

/-- The run state (R33). -/
inductive Status where
  | running
  | halted (cause : HaltCause)
  deriving DecidableEq, Repr

/-- The memory (20_memory.md R50) as the cells that differ from what an unlisted cell reads as, addresses
strictly rising (`Memory.wf`, Machine/Memory.lean). -/
abbrev Memory := List Host.Cell

/-- The machine state (R20), with what the spec passes to a run from outside: the memory size (00_scope.md R6)
and the program (R38), which no step changes (logs 1 and 2), and the `jumped` latch (R34, log 6). -/
structure State where
  regs    : Vector Word 8
  mem     : Memory
  memSize : Nat
  flags   : Flags
  ip      : Int
  status  : Status
  jumped  : Bool
  program : Program
  deriving DecidableEq, Repr

/-- Accesses to what the spec says does not exist. No step raises one: the program is refused before it runs
(20_memory.md R54, 30_encoding.md R86); they arise only where a meaning is applied outside a step, log 10. -/
inductive Fault where
  /-- Raised by reading an operand, or resolving a destination, that names register 8 or above
  (30_encoding.md R86). Safe: the spec gives such a reference no effect. -/
  | noSuchRegister (i : Nat)
  /-- Raised by the store primitive for an index that selects neither a register nor a cell
  (20_memory.md R51, R54). Safe: the spec gives such a write no effect. -/
  | noSuchDestination (d : Int)
  deriving DecidableEq, Repr

/-- Why there is no run. -/
inductive Refusal where
  /-- Raised by `exec` for an instruction that has no meaning yet (none in this model). Safe. -/
  | notModelled (mnemonic : String)
  /-- Raised by `step`: record `index` of the program fails `check`, so the program is refused
  (30_encoding.md R85, R86; log 9). Safe: the spec gives it no run. -/
  | illFormedProgram (index : Nat) (check : Check)
  /-- Raised by operand resolution for a token that is no literal (30_encoding.md R78; log 10). No step
  raises it: the program is refused first. Safe. -/
  | malformedToken (t : Token)
  deriving DecidableEq, Repr

/-- The host seed `INIT` (R40, 00_scope.md R6): registers, memory and flags before the first instruction. -/
structure Init where
  regs  : Vector Word 8
  mem   : Memory
  flags : Flags
  deriving DecidableEq, Repr

/-- Reset, that is the start of a run (70_reset_and_hazards.md R190, R192; R44): `ip` 0, `Running`, the registers,
memory and flags of the seed, the program the host supplied. The latch has no value between steps: log 6. -/
def State.start (memSize : Nat) (init : Init) (program : Program) : State where
  regs := init.regs
  mem := init.mem
  memSize := memSize
  flags := init.flags
  ip := 0
  status := .running
  jumped := false
  program := program

/-- The seed of the reference profile (70_reset_and_hazards.md R191): all zero, all false. DESIGN CHOICE,
logs 3, 4 and 5: the spec states no value. -/
def Init.reference : Init where
  regs := Vector.replicate 8 0
  mem := []
  flags := { zf := false, cf := false, of := false, nf := false }

/-- The machine right after reset: nothing seeded (logs 3, 4, 5), the reference memory size (log 2), no program
loaded (log 1). -/
def State.reset : State := State.start Config.referenceMemSize Init.reference []

end Sys2Proof.Machine
end

