-- ==== Sys2Proof/Machine/Flags.lean ====
section
/-! DEFINITION. The flag computations, on the exact integers (42_arithmetic.md R130 to R134). -/

namespace Sys2Proof.Machine

/-- The sign of an exact integer. -/
def signOf (v : Int) : Sign := if v < 0 then .neg else if v = 0 then .zero else .pos

/-- `OVF_ADD(a, b, r)` (R131, log 8): open, but a function of the three signs. -/
def overflowAdd (a b r : Int) : Bool := Config.ovfAdd (signOf a) (signOf b) (signOf r)

/-- `OVF_SUB(a, b, r)` (R131, log 8): open, but a function of the three signs. -/
def overflowSub (a b r : Int) : Bool := Config.ovfSub (signOf a) (signOf b) (signOf r)

/-- The flags of `add` (R132): carry where the exact sum exceeds the 32-bit unsigned maximum. -/
def addFlags (a b : Int) : Flags where
  zf := decide (a + b = 0)
  cf := decide (4294967295 < a + b)
  of := overflowAdd a b (a + b)
  nf := decide (a + b < 0)

/-- The flags of `sub` (R133): carry where the exact difference is negative. -/
def subFlags (a b : Int) : Flags where
  zf := decide (a - b = 0)
  cf := decide (a - b < 0)
  of := overflowSub a b (a - b)
  nf := decide (a - b < 0)

/-- The flags of `cmp` (R134): as `sub`, but the overflow flag stays what it was. -/
def cmpFlags (old : Flags) (a b : Int) : Flags where
  zf := decide (a - b = 0)
  cf := decide (a - b < 0)
  of := old.of
  nf := decide (a - b < 0)

end Sys2Proof.Machine
end

