-- ==== Sys2Proof/Machine/Memory.lean ====
section
/-! DEFINITION. The byte memory as a list of cells in one canonical form (20_memory.md R50; log 4). -/

namespace Sys2Proof.Machine

/-- What an unlisted cell reads as. DESIGN CHOICE, log 4: the reference profile's 0
(70_reset_and_hazards.md R191). -/
def Memory.blank : Byte := 0

/-- The byte at address `j`. -/
def Memory.read : Memory → Nat → Byte
  | [], _ => Memory.blank
  | (a, b) :: m, j => if a = j then b else Memory.read m j

/-- A cell in front of a memory, left out where it holds what an unlisted cell reads as. -/
def Memory.consCell (j : Nat) (v : Byte) (m : Memory) : Memory :=
  if v = Memory.blank then m else (j, v) :: m

/-- The memory with byte `v` at address `j`, in canonical form. -/
def Memory.write : Memory → Nat → Byte → Memory
  | [], j, v => Memory.consCell j v []
  | (a, b) :: m, j, v =>
    if j < a then Memory.consCell j v ((a, b) :: m)
    else if j = a then Memory.consCell j v m
    else (a, b) :: Memory.write m j v

/-- The canonical form: addresses strictly rising, no cell equal to what an unlisted one reads as. -/
def Memory.wf : Memory → Bool
  | [] => true
  | (a, b) :: m => decide (b ≠ Memory.blank) && m.all (fun c => decide (a < c.1)) && Memory.wf m

/-- Every listed cell lies in a memory of `size` cells (R50). -/
def Memory.within (size : Nat) (m : Memory) : Bool := m.all fun c => decide (c.1 < size)

end Sys2Proof.Machine
end

