-- ==== Sys2Proof/Machine/Ops.lean ====
section
/-! DEFINITION. The named operations over the state: reading and writing registers and cells, writing `ip`, halting, and the phases of a step around the handler (40_sequencer.md R101 to R105). -/

namespace Sys2Proof.Machine

/-- A value, or the reason there is none. -/
abbrev Result (α : Type) := Host.Outcome α Fault Refusal

/-- Go on with the value, where there is one. -/
def Result.bind {α β : Type} (r : Result α) (f : α → Result β) : Result β :=
  match r with
  | .next a => f a
  | .fault e => .fault e
  | .refused e => .refused e

/-- `x[i]` (10_state.md R21, R24): the whole 32-bit value; a register that does not exist faults (log 10). -/
def State.readReg (s : State) (i : Nat) : Result Word :=
  if h : i < 8 then .next s.regs[i] else .fault (.noSuchRegister i)

/-- `x[i] <- w` (10_state.md R22, R24): no register is hardwired. -/
def State.writeReg (s : State) (i : Fin 8) (w : Word) : State :=
  { s with regs := s.regs.set i w }

/-- `mem[j]` as the host reads it (10_state.md R41, 00_scope.md R8); no instruction does (20_memory.md R52). None: the
memory has no such cell. -/
def State.readMem (s : State) (j : Nat) : Option Byte :=
  if j < s.memSize then some (Memory.read s.mem j) else none

/-- `MemWrite(j, 1, v)` (00_scope.md R8). -/
def State.writeMem (s : State) (j : Nat) (v : Byte) : State :=
  { s with mem := Memory.write s.mem j v }

/-- Write the flags. -/
def State.setFlags (s : State) (f : Flags) : State := { s with flags := f }

/-- A taken jump writes `ip` and sets the latch (10_state.md R34, 43_control_transfer.md R150). -/
def State.jumpTo (s : State) (t : Int) : State := { s with ip := t, jumped := true }

/-- `halt(cause)` (00_scope.md R9, 60_exceptions.md R167): changes `status` and nothing else. It stands where other
machines take an exception; there is no return from it (60_exceptions.md R168). -/
def State.halt (s : State) (cause : HaltCause) : State := { s with status := .halted cause }

/-- The record at `ip`, none where `ip` is out of bounds (40_sequencer.md R101). -/
def State.fetch (s : State) : Option Record :=
  if s.ip < 0 then none else s.program[s.ip.toNat]?

/-- An instruction starts executing: the latch is cleared (40_sequencer.md R104). -/
def State.beginInstr (s : State) : State := { s with jumped := false }

/-- The advance (40_sequencer.md R105): by one record unless the handler wrote `ip`. The latch does not survive the
step (10_state.md R34): it is left cleared, log 6. -/
def State.advance (s : State) : State :=
  if s.jumped then { s with jumped := false } else { s with ip := s.ip + 1 }

/-- The end of the step (40_sequencer.md R102, R105): an unsupported record halted the run and `ip` stays; otherwise
the advance. -/
def State.finish (s : State) : State :=
  match s.status with
  | .running => s.advance
  | .halted _ => s

/-- What a step answers once the run has halted (40_sequencer.md R108): the state stays as it is for ever. DESIGN
CHOICE, log 7. -/
def State.haltedStep (s : State) : Result State := .next s

/-- The host loads a program and starts it at index 0, leaving the seeded registers, memory and flags
(70_reset_and_hazards.md R190, R192). -/
def State.loadProgram (s : State) (p : Program) : State :=
  { s with program := p, ip := 0, status := .running }

/-- What the halted core reports to the host (10_state.md R42): the offending mnemonic, and nothing at the normal
end or while it runs. -/
def State.haltReport (s : State) : Option String :=
  match s.status with
  | .running => none
  | .halted .endOfProgram => none
  | .halted (.unsupported m) => some m

end Sys2Proof.Machine
end

