-- ==== Sys2Proof/Machine/Operands.lean ====
section
/-! DEFINITION. Operand resolution, destination resolution and the store primitive (30_encoding.md R76, R80; 20_memory.md R51, R53). -/

namespace Sys2Proof.Machine

/-- The value of a literal token, or its refusal as malformed (30_encoding.md R78; log 10). -/
def literal (t : Token) : Result Int :=
  match literalValue t with
  | some v => .next v
  | none => .refused (.malformedToken t)

/-- `Resolve` (30_encoding.md R76): an exact integer. It reads nothing but the register a reference names (R79). -/
def resolve (s : State) (t : Token) : Result Int :=
  match t with
  | .reg i => (s.readReg i).bind fun w => .next (w.toNat : Int)
  | .num _ => literal t
  | .hex _ => literal t
  | .text _ => literal t

/-- `DestIndex` (30_encoding.md R80). A reference to a register that does not exist faults: R86 does not let it
address memory (log 10). -/
def destIndex (t : Token) : Result Int :=
  match destOf t with
  | some d => if regOk t then .next d else .fault (.noSuchRegister d.toNat)
  | none => .refused (.malformedToken t)

/-- `Write(d, v)` (20_memory.md R53): `v` modulo 2^32 into a register, modulo 2^8 into a cell. An index that
selects nothing faults (R51, R54; log 10). -/
def writeDest (d v : Int) (s : State) : Result State :=
  if h : 0 ≤ d ∧ d < 8 then
    .next (s.writeReg ⟨d.toNat, by omega⟩ (BitVec.ofInt 32 v))
  else if 8 ≤ d ∧ d < 8 + s.memSize then
    .next (s.writeMem (d - 8).toNat (BitVec.ofInt 8 v))
  else .fault (.noSuchDestination d)

end Sys2Proof.Machine
end

