-- ==== Sys2Proof/Machine/Arithmetic.lean ====
section
/-! DEFINITION. Arithmetic and comparison (42_arithmetic.md). Both operands are resolved on the state at the start of the instruction (30_encoding.md R81); `op2` is second input and destination of `add` and `sub`. -/

namespace Sys2Proof.Machine

/-- `add` (R132). -/
def execAdd (op1 op2 : Token) (s : State) : Result State :=
  (resolve s op1).bind fun a =>
  (resolve s op2).bind fun b =>
  (destIndex op2).bind fun d =>
  writeDest d (a + b) (s.setFlags (addFlags a b))

/-- `sub` (R133): `op1 - op2`. -/
def execSub (op1 op2 : Token) (s : State) : Result State :=
  (resolve s op1).bind fun a =>
  (resolve s op2).bind fun b =>
  (destIndex op2).bind fun d =>
  writeDest d (a - b) (s.setFlags (subFlags a b))

/-- `cmp` (R134): flags only, no destination. -/
def execCmp (op1 op2 : Token) (s : State) : Result State :=
  (resolve s op1).bind fun a =>
  (resolve s op2).bind fun b =>
  .next (s.setFlags (cmpFlags s.flags a b))

end Sys2Proof.Machine
end

