-- ==== Sys2Proof/Machine/ControlTransfer.lean ====
section
/-! DEFINITION. Control transfer (43_control_transfer.md): targets are absolute instruction indices (R153), taken without a range check. -/

namespace Sys2Proof.Machine

/-- `jmp` (R150). -/
def execJmp (op1 : Token) (s : State) : Result State :=
  (resolve s op1).bind fun t => .next (s.jumpTo t)

/-- `je` (R151): the target is resolved whether or not the jump is taken. -/
def execJe (op1 : Token) (s : State) : Result State :=
  (resolve s op1).bind fun t => .next (if s.flags.zf then s.jumpTo t else s)

end Sys2Proof.Machine
end

