-- ==== Sys2Proof/Machine/DataMovement.lean ====
section
/-! DEFINITION. Data movement (41_data_movement.md). -/

namespace Sys2Proof.Machine

/-- `mov` (R120): the resolved source into the destination, no flag. -/
def execMov (op1 op2 : Token) (s : State) : Result State :=
  (resolve s op1).bind fun v =>
  (destIndex op2).bind fun d =>
  writeDest d v s

end Sys2Proof.Machine
end

