-- ==== Sys2Proof/Machine/Unsupported.lean ====
section
/-! DEFINITION. The fallback row of the opcode table (40_sequencer.md R102, 60_exceptions.md R161). -/

namespace Sys2Proof.Machine

/-- A record whose mnemonic is not one of the six halts the run and names the mnemonic; nothing else changes. -/
def execOther (mnem : String) (s : State) : Result State :=
  .next (s.halt (.unsupported mnem))

end Sys2Proof.Machine
end

