-- ==== Sys2Proof/Machine/Dispatch.lean ====
section
/-! DEFINITION. The handler the mnemonic selects (30_encoding.md R87, 40_sequencer.md R104). -/

namespace Sys2Proof.Machine

def exec (i : Instr) (s : State) : Host.Outcome State Fault Refusal :=
  match i with
  | .mov op1 op2 => Sys2Proof.Machine.execMov op1 op2 s
  | .add op1 op2 => Sys2Proof.Machine.execAdd op1 op2 s
  | .sub op1 op2 => Sys2Proof.Machine.execSub op1 op2 s
  | .cmp op1 op2 => Sys2Proof.Machine.execCmp op1 op2 s
  | .jmp op1 => Sys2Proof.Machine.execJmp op1 s
  | .je op1 => Sys2Proof.Machine.execJe op1 s
  | .other mnem => Sys2Proof.Machine.execOther mnem s

end Sys2Proof.Machine
end

