-- ==== Sys2Proof/Machine/Sequencer.lean ====
section
/-! DEFINITION. The step of a running core, phase by phase (40_sequencer.md R101 to R106). -/

namespace Sys2Proof.Machine

/-- One record fetched and executed (R102 to R105). The refusal is for a record that does not decode; in a
well-formed program there is none. -/
def stepRecord (s : State) (r : Record) : Result State :=
  match decode r with
  | .ok i => Result.bind (exec i s.beginInstr) fun t => .next t.finish
  | .error c => .refused (.illFormedProgram s.ip.toNat c)

/-- A step in `Running` (R106). A program that is not well-formed has no run (30_encoding.md R86, log 9); `ip` out of
bounds is the normal end (R101). -/
def stepRunning (s : State) : Result State :=
  match Program.defect s.memSize s.program with
  | some (k, c) => .refused (.illFormedProgram k c)
  | none =>
    match s.fetch with
    | none => .next (s.halt .endOfProgram)
    | some r => stepRecord s r

end Sys2Proof.Machine
end

