-- ==== Sys2Proof/Machine/Step.lean ====
section
/-! DEFINITION. One step of the core (40_sequencer.md R100, R106, R108). -/

namespace Sys2Proof.Machine

/-- A step (R106) where the core runs; a halted state stays (R108, log 7). -/
def step (s : State) : Host.Outcome State Fault Refusal :=
  match s.status with
  | .running => stepRunning s
  | .halted _ => s.haltedStep

/-- The state with the one-record program a table word stands for loaded and started (logs 1 and 11). -/
def State.withFetchWord (s : State) (nbits w : Nat) : State :=
  s.loadProgram [tableRecord nbits w]

end Sys2Proof.Machine
end

