-- ==== Sys2Proof/Safety.lean ====
section
/-! DEFINITION. What claims about runs are stated in: how a run has ended (60_exceptions.md R164), the invariants of the state, and when two states agree but for one part. -/

namespace Sys2Proof.Machine

/-- The classification of R164: `Halted(End)` is the only successful final state, `Halted(Unsupported(m))` a fault
outcome. -/
inductive Verdict where
  | running
  | success
  | fault (mnem : String)
  deriving DecidableEq, Repr

/-- How the run stands (R164). -/
def State.verdict (s : State) : Verdict :=
  match s.status with
  | .running => .running
  | .halted .endOfProgram => .success
  | .halted (.unsupported m) => .fault m

/-- `ip` selects a record of the program (R101). -/
abbrev State.ipInBounds (s : State) : Prop := 0 ≤ s.ip ∧ s.ip < s.program.length

/-- The memory is in canonical form, lists no cell outside `[0, MEM_SIZE)`, and the latch holds nothing between
steps (20_memory.md R50; 10_state.md R34; logs 4 and 6). -/
abbrev State.Inv (s : State) : Prop :=
  Memory.wf s.mem = true ∧ Memory.within s.memSize s.mem = true ∧ s.jumped = false

/-- What `status` says of where the run stopped (10_state.md R33, 40_sequencer.md R101, R102; 60_exceptions.md R161,
R163). -/
def State.StatusInv (s : State) : Prop :=
  match s.status with
  | .running => True
  | .halted .endOfProgram => ¬ s.ipInBounds
  | .halted (.unsupported m) => ∃ r, s.fetch = some r ∧ r.mnem = m ∧ m ∉ recognisedMnemonics

/-- The states are equal but for the memory's contents. -/
def State.AgreeExceptMem (s t : State) : Prop := { s with mem := t.mem } = t

/-- The states are equal but for `CF`, `OF` and `NF`. -/
def State.AgreeExceptUnreadFlags (s t : State) : Prop :=
  { s with flags := { t.flags with zf := s.flags.zf } } = t

/-- The records are equal but for the opcode byte and the content of the size tag (30_encoding.md R71, R73). -/
def Record.AgreeExceptIgnored (r q : Record) : Prop :=
  r.mnem = q.mnem ∧ r.ops.length = q.ops.length ∧ r.ops.tail = q.ops.tail

/-- The programs are equal but for opcode bytes and size tags, record by record. -/
def Program.AgreeExceptIgnored (p q : Program) : Prop := List.Forall₂ Record.AgreeExceptIgnored p q

/-- Both outcomes are next states that `R` relates, or both stop for the same reason. -/
def Result.Related (R : State → State → Prop) (x y : Host.Outcome State Fault Refusal) : Prop :=
  match x, y with
  | .next s, .next t => R s t
  | .fault e, .fault f => e = f
  | .refused e, .refused f => e = f
  | _, _ => False

/-- A step from `s` gives `t` wherever the record at `ip` has this mnemonic and these operands, whatever its opcode
byte and size tag: the core runs, the program is well-formed, and the latch holds nothing between steps
(40_sequencer.md R100 to R106). -/
def State.StepsTo (s : State) (mnem : String) (operands : List Token) (t : State) : Prop :=
  ∀ (opcode : Byte) (tag : Token), s.status = .running → s.jumped = false →
    Program.WellFormed s.memSize s.program → 0 ≤ s.ip →
    s.program[s.ip.toNat]? = some { opcode := opcode, ops := tag :: operands, mnem := mnem } →
    step s = .next t

end Sys2Proof.Machine
end

