-- ==== Sys2Proof/Certificates/Slice0/Obligations.lean ====
section
/-! DEFINITION. The statements for the provers, from the numbered rules of spec/. Where a statement rests on a choice of the model or on a decision the spec marks as its own, its docstring names it. -/

open Sys2Proof Sys2Proof.Machine

/-- The bridge from the meanings to a run (40_sequencer.md section 1). Leaving the latch cleared after the step is
the model's choice, log 6. -/
def Obligations.StepRunsDecodedInstruction : Prop :=
  ∀ (s : State) (r : Record) (i : Instr), s.status = .running →
    Program.WellFormed s.memSize s.program → 0 ≤ s.ip → s.program[s.ip.toNat]? = some r → decode r = .ok i →
    ∃ t, exec i { s with jumped := false } = .next t ∧
      step s = .next
        (match t.status with
         | .halted _ => t
         | .running => if t.jumped then { t with jumped := false } else { t with ip := t.ip + 1 })

/-- R106, case by case of its pseudocode, which restates without a mark what R101, R102 and R105 give with the
decisions D7, D17 and D9. It says nothing of the latch between steps (R34). -/
def Obligations.WholeStep : Prop :=
  ∀ (s : State), s.status = .running → Program.WellFormed s.memSize s.program →
    (s.ip < 0 ∨ (s.program.length : Int) ≤ s.ip → step s = .next { s with status := .halted .endOfProgram }) ∧
    ∀ r, 0 ≤ s.ip → s.program[s.ip.toNat]? = some r →
      let ran (operands : List Token) (outcome : Host.Outcome State Fault Refusal) : Prop :=
        r.ops.tail = operands ∧ r.ops.length = 1 + operands.length ∧
        ∃ t u, outcome = .next t ∧ step s = .next u ∧
          { u with jumped := false } = { t with jumped := false, ip := if t.jumped then t.ip else t.ip + 1 }
      (r.mnem ∉ ["mov", "add", "sub", "cmp", "jmp", "je"] →
        ∃ u, step s = .next u ∧
          { u with jumped := false } = { s with jumped := false, status := .halted (.unsupported r.mnem) }) ∧
      (r.mnem = "mov" → ∃ a b, ran [a, b] (exec (.mov a b) { s with jumped := false })) ∧
      (r.mnem = "add" → ∃ a b, ran [a, b] (exec (.add a b) { s with jumped := false })) ∧
      (r.mnem = "sub" → ∃ a b, ran [a, b] (exec (.sub a b) { s with jumped := false })) ∧
      (r.mnem = "cmp" → ∃ a b, ran [a, b] (exec (.cmp a b) { s with jumped := false })) ∧
      (r.mnem = "jmp" → ∃ a, ran [a] (exec (.jmp a) { s with jumped := false })) ∧
      (r.mnem = "je" → ∃ a, ran [a] (exec (.je a) { s with jumped := false }))

/-- Sanity: records copied from 95_test_vectors.md (P1, P3, V-SEQ-3, V-WF-1, V-WF-2). -/
def Obligations.SpecRecordsDecode : Prop :=
  decode { opcode := 0, ops := [.text "32", .num 10, .reg 1], mnem := "mov" } = .ok (.mov (.num 10) (.reg 1)) ∧
  decode { opcode := 0, ops := [.text "32", .reg 1, .reg 0], mnem := "add" } = .ok (.add (.reg 1) (.reg 0)) ∧
  decode { opcode := 0, ops := [.text "32", .num 3, .reg 0], mnem := "sub" } = .ok (.sub (.num 3) (.reg 0)) ∧
  decode { opcode := 0, ops := [.text "32", .reg 0, .hex "FFFFFFFC"], mnem := "cmp" } =
    .ok (.cmp (.reg 0) (.hex "FFFFFFFC")) ∧
  decode { opcode := 0, ops := [.text "8", .num 0], mnem := "jmp" } = .ok (.jmp (.num 0)) ∧
  decode { opcode := 0x74, ops := [.text "8", .num 5], mnem := "je" } = .ok (.je (.num 5)) ∧
  decode { opcode := 0, ops := [.text "32", .reg 0], mnem := "push" } = .ok (.other "push") ∧
  decode { opcode := 0, ops := [.text "32", .num 1, .reg 0], mnem := "MOV" } = .ok (.other "MOV") ∧
  decode { opcode := 0, ops := [.text "32", .num 10], mnem := "mov" } = .error .wfArity ∧
  decode { opcode := 0, ops := [], mnem := "mov" } = .error .wfTag

/-- No operand of any shape or value is dropped on the way. That the operands of an unsupported record are dropped
is the model's choice, log 12. -/
def Obligations.DecodeOfEncode : Prop :=
  ∀ (n : Nat) (opcode : Byte) (tag : Token) (i : Instr), i.WellFormed n → decode (encode opcode tag i) = .ok i

/-- The other direction: each record has one meaning. The fallback row as a constructor is the model's choice, log
12. -/
def Obligations.EncodeOfDecode : Prop :=
  ∀ (r : Record) (i : Instr), decode r = .ok i → i.mnemonicOk = true ∧
    (r.mnem ∈ ["mov", "add", "sub", "cmp", "jmp", "je"] → ∃ tag, r.ops.head? = some tag ∧ encode r.opcode tag i = r) ∧
    (r.mnem ∉ ["mov", "add", "sub", "cmp", "jmp", "je"] → i = .other r.mnem)

/-- The table of R85, whose checks are the spec's own decisions D11 to D15 and D26. -/
def Obligations.WellFormedProgramMeans : Prop :=
  ∀ (n : Nat) (p : Program), Program.WellFormed n p ↔
    ∀ r ∈ p, r.mnem ∈ ["mov", "add", "sub", "cmp", "jmp", "je"] →
      r.ops ≠ [] ∧
      (r.mnem ∈ ["mov", "add", "sub", "cmp"] → r.ops.length = 3) ∧
      (r.mnem ∈ ["jmp", "je"] → r.ops.length = 2) ∧
      (∀ t ∈ r.ops.tail,
        (∀ h, t = .hex h → ∃ v, hexValue h = some v) ∧ (∀ w, t = .text w → ∃ v, decValue w = some v) ∧
        (∀ i, t = .reg i → i < 8) ∧ (∀ v, literalValue t = some v → -2 ^ 31 ≤ v ∧ v ≤ 2 ^ 32 - 1)) ∧
      (r.mnem ∈ ["mov", "add", "sub"] →
        ∃ t d, r.ops[2]? = some t ∧ destOf t = some d ∧ 0 ≤ d ∧ d < 8 + n)

/-- R76. The values of HexValue and DecValue are stated of them on their own. -/
def Obligations.ResolveByTokenShape : Prop :=
  ∀ s : State,
    (∀ v, resolve s (.num v) = .next v) ∧
    (∀ i : Fin 8, resolve s (.reg i) = .next (s.regs[i].toNat : Int)) ∧
    (∀ h n, hexValue h = some n → resolve s (.hex h) = .next (n : Int)) ∧
    (∀ w v, decValue w = some v → resolve s (.text w) = .next v) ∧
    (∀ (i : Nat) v, resolve s (.reg i) = .next v → 0 ≤ v)

/-- R77, against the library's positional value of a digit list. -/
def Obligations.HexValueIsBaseSixteen : Prop :=
  (∀ (cs : List Char) (n : Nat), hexValue (String.ofList cs) = some n ↔
    cs ≠ [] ∧ ∃ ds : List Nat,
      List.Forall₂ (fun c d => ['0', '1', '2', '3', '4', '5', '6', '7', '8', '9', 'a', 'b', 'c', 'd', 'e', 'f'][d]? = some c ∨
        ['0', '1', '2', '3', '4', '5', '6', '7', '8', '9', 'A', 'B', 'C', 'D', 'E', 'F'][d]? = some c) cs ds ∧
      n = Nat.ofDigits 16 ds.reverse) ∧
  hexValue "1F" = some 31 ∧ hexValue "FFFFFFFC" = some 4294967292

/-- R78, whose domain is the spec's own decision D11. -/
def Obligations.DecValueIsSignedDecimal : Prop :=
  ∀ (cs : List Char) (v : Int), decValue (String.ofList cs) = some v ↔
    ∃ (sign digits : List Char) (ds : List Nat),
      cs = sign ++ digits ∧ (sign = [] ∨ sign = ['+'] ∨ sign = ['-']) ∧ digits ≠ [] ∧
      List.Forall₂ (fun c d => ['0', '1', '2', '3', '4', '5', '6', '7', '8', '9'][d]? = some c) digits ds ∧
      v = if sign = ['-'] then -((Nat.ofDigits 10 ds.reverse : Nat) : Int) else ((Nat.ofDigits 10 ds.reverse : Nat) : Int)

/-- R79. -/
def Obligations.ResolutionReadsOneRegister : Prop :=
  ∀ (s u : State) (t : Token), (∀ i : Fin 8, t = .reg i → s.regs[i] = u.regs[i]) → resolve s t = resolve u t

/-- R80; the reading of text destinations is the spec's own decision D22. -/
def Obligations.DestIndexByTokenShape : Prop :=
  (∀ i : Fin 8, destIndex (.reg i) = .next (i : Int)) ∧ (∀ v, destIndex (.num v) = .next v) ∧
  (∀ h n, hexValue h = some n → destIndex (.hex h) = .next (n : Int)) ∧
  (∀ w v, decValue w = some v → destIndex (.text w) = .next v)

/-- R84 and R130; the literal range is the spec's own decision D15. -/
def Obligations.ExactResultsStayInRange : Prop :=
  ∀ (s : State) (i : Instr) (op1 op2 : Token), i = .add op1 op2 ∨ i = .sub op1 op2 ∨ i = .cmp op1 op2 →
    i.failedCheck s.memSize = none → ∃ a b, resolve s op1 = .next a ∧ resolve s op2 = .next b ∧
      -2 ^ 31 ≤ a ∧ a ≤ 2 ^ 32 - 1 ∧ -2 ^ 31 ≤ b ∧ b ≤ 2 ^ 32 - 1 ∧
      -2 ^ 33 ≤ a + b ∧ a + b ≤ 2 ^ 33 ∧ -2 ^ 33 ≤ a - b ∧ a - b ≤ 2 ^ 33

/-- R51 and R53; the reduction is the spec's own decision D2, the fault outside the space the model's, log 10. -/
def Obligations.StorePrimitive : Prop :=
  ∀ (s : State) (v : Int),
    (∀ i : Fin 8, ∃ t, writeDest i v s = .next t ∧ t = { s with regs := t.regs } ∧
      ((t.regs[i].toNat : Int) = v % 2 ^ 32) ∧ ∀ k : Fin 8, k ≠ i → t.regs[k] = s.regs[k]) ∧
    (∀ j : Nat, j < s.memSize → Memory.wf s.mem = true → ∃ t, writeDest (8 + j) v s = .next t ∧
      t = { s with mem := t.mem } ∧ Memory.wf t.mem = true ∧
      ((Memory.read t.mem j).toNat : Int) = v % 2 ^ 8 ∧ ∀ k, k ≠ j → Memory.read t.mem k = Memory.read s.mem k) ∧
    (∀ d : Int, d < 0 ∨ 8 + (s.memSize : Int) ≤ d → writeDest d v s = .fault (.noSuchDestination d))

/-- R58: "writing the same value twice leaves the same state as writing it once". -/
def Obligations.StoreTwiceIsStoreOnce : Prop :=
  ∀ (s t : State) (d v : Int), Memory.wf s.mem = true → writeDest d v s = .next t → writeDest d v t = .next t

/-- R22, through a mov (R120). That the value read back is the moved one modulo 2^32 is the spec's own decision D2
(log 14). -/
def Obligations.RegistersReadBackLastWrite : Prop :=
  ∀ (s : State) (op : Token) (v : Int) (i : Fin 8), resolve s op = .next v →
    ∃ t, exec (.mov op (.reg i)) s = .next t ∧ resolve t (.reg i) = .next (v % 2 ^ 32) ∧
      ∀ k : Fin 8, k ≠ i → resolve t (.reg k) = resolve s (.reg k)

/-- R120; the reduction is the spec's own decision D2. -/
def Obligations.MovResult : Prop :=
  ∀ (s : State) (op1 op2 : Token) (v d : Int), resolve s op1 = .next v → destIndex op2 = .next d →
    (∀ i : Fin 8, d = i →
      exec (.mov op1 op2) s = .next { s with regs := s.regs.set i (BitVec.ofInt 32 (v)) } ∧
      s.StepsTo "mov" [op1, op2] { s with regs := s.regs.set i (BitVec.ofInt 32 (v)), ip := s.ip + 1 }) ∧
    (∀ j : Nat, j < s.memSize → d = 8 + j →
      exec (.mov op1 op2) s = .next { s with mem := Memory.write s.mem j (BitVec.ofInt 8 (v)) } ∧
      s.StepsTo "mov" [op1, op2] { s with mem := Memory.write s.mem j (BitVec.ofInt 8 (v)), ip := s.ip + 1 })

/-- R132. Its exact flags are also the subject of the spec's decision D3, its stored value of D2. -/
def Obligations.AddResult : Prop :=
  ∀ (s : State) (op1 op2 : Token) (a b d : Int), resolve s op1 = .next a → resolve s op2 = .next b →
    destIndex op2 = .next d →
    let f : Flags := { zf := decide (a + b = 0), cf := decide (a + b > 2 ^ 32 - 1), of := overflowAdd a b (a + b), nf := decide (a + b < 0) }
    (∀ i : Fin 8, d = i →
      exec (.add op1 op2) s = .next { s with flags := f, regs := s.regs.set i (BitVec.ofInt 32 (a + b)) } ∧
      s.StepsTo "add" [op1, op2] { s with flags := f, regs := s.regs.set i (BitVec.ofInt 32 (a + b)), ip := s.ip + 1 }) ∧
    (∀ j : Nat, j < s.memSize → d = 8 + j →
      exec (.add op1 op2) s = .next { s with flags := f, mem := Memory.write s.mem j (BitVec.ofInt 8 (a + b)) } ∧
      s.StepsTo "add" [op1, op2] { s with flags := f, mem := Memory.write s.mem j (BitVec.ofInt 8 (a + b)), ip := s.ip + 1 })

/-- R133. Its exact flags are also the subject of the spec's decision D3, its stored value of D2. -/
def Obligations.SubResult : Prop :=
  ∀ (s : State) (op1 op2 : Token) (a b d : Int), resolve s op1 = .next a → resolve s op2 = .next b →
    destIndex op2 = .next d →
    let f : Flags := { zf := decide (a - b = 0), cf := decide (a - b < 0), of := overflowSub a b (a - b), nf := decide (a - b < 0) }
    (∀ i : Fin 8, d = i →
      exec (.sub op1 op2) s = .next { s with flags := f, regs := s.regs.set i (BitVec.ofInt 32 (a - b)) } ∧
      s.StepsTo "sub" [op1, op2] { s with flags := f, regs := s.regs.set i (BitVec.ofInt 32 (a - b)), ip := s.ip + 1 }) ∧
    (∀ j : Nat, j < s.memSize → d = 8 + j →
      exec (.sub op1 op2) s = .next { s with flags := f, mem := Memory.write s.mem j (BitVec.ofInt 8 (a - b)) } ∧
      s.StepsTo "sub" [op1, op2] { s with flags := f, mem := Memory.write s.mem j (BitVec.ofInt 8 (a - b)), ip := s.ip + 1 }) ∧
    f.cf = f.nf

/-- R134. -/
def Obligations.CmpResult : Prop :=
  (∀ (s : State) (op1 op2 : Token) (a b : Int), resolve s op1 = .next a → resolve s op2 = .next b →
    let f : Flags := { zf := decide (a - b = 0), cf := decide (a - b < 0), of := s.flags.of, nf := decide (a - b < 0) }
    exec (.cmp op1 op2) s = .next { s with flags := f } ∧
    s.StepsTo "cmp" [op1, op2] { s with flags := f, ip := s.ip + 1 }) ∧
  ∀ (op1 op2 : Token) (n m : Nat), (Instr.cmp op1 op2).failedCheck n = (Instr.cmp op1 op2).failedCheck m

/-- R150. The step leaves the latch, which exec has set, cleared again: that is the model's choice, log 6 (R34
gives it no value between steps). The absolute target, the self-jump and the end at a negative ip are also the
subject of the spec's decisions D8, D9 and D7. -/
def Obligations.JmpResult : Prop :=
  ∀ (s : State) (op1 : Token) (v : Int), resolve s op1 = .next v →
    exec (.jmp op1) s = .next { s with ip := v, jumped := true } ∧
    s.StepsTo "jmp" [op1] { s with ip := v } ∧
    (v < 0 ∨ (s.program.length : Int) ≤ v → s.status = .running → Program.WellFormed s.memSize s.program →
      step { s with ip := v } = .next { s with ip := v, status := .halted .endOfProgram })

/-- R151. The step of a taken je leaves the latch, which exec has set, cleared again: that is the model's choice,
log 6 (R34 gives it no value between steps). The absolute target, the self-jump and the end at a negative ip
are also the subject of the spec's decisions D8, D9 and D7. -/
def Obligations.JeResult : Prop :=
  ∀ (s : State) (op1 : Token) (v : Int), resolve s op1 = .next v →
    (s.flags.zf = true →
      exec (.je op1) s = .next { s with ip := v, jumped := true } ∧ s.StepsTo "je" [op1] { s with ip := v } ∧
      (v < 0 ∨ (s.program.length : Int) ≤ v → s.status = .running → Program.WellFormed s.memSize s.program →
        step { s with ip := v } = .next { s with ip := v, status := .halted .endOfProgram })) ∧
    (s.flags.zf = false →
      exec (.je op1) s = .next s ∧ s.StepsTo "je" [op1] { s with ip := s.ip + 1 })

/-- R161 and R42. That the verdict on such a halt is a fault is the classification of R164, the spec's own
decision D19, which the model reads off the status of a next state (log 13). -/
def Obligations.UnsupportedHalts : Prop :=
  (∀ (s : State) (m : String), exec (.other m) s = .next { s with status := .halted (.unsupported m) }) ∧
  (∀ (s : State) (r : Record), s.status = .running → s.jumped = false →
    Program.WellFormed s.memSize s.program → 0 ≤ s.ip → s.program[s.ip.toNat]? = some r →
    r.mnem ∉ ["mov", "add", "sub", "cmp", "jmp", "je"] →
    ∃ t, step s = .next t ∧ t = { s with status := .halted (.unsupported r.mnem) } ∧
      t.haltReport = some r.mnem ∧ t.verdict = .fault r.mnem) ∧
  (∀ s : State, s.status = .halted .endOfProgram → s.haltReport = none)

/-- R163. That a negative ip is out of bounds too is the spec's own decision D7, and that the verdict is a success
is the classification of R164, its own decision D19 (log 13). -/
def Obligations.OutOfBoundsEndsNormally : Prop :=
  ∀ s : State, s.status = .running → Program.WellFormed s.memSize s.program →
    (s.ip < 0 ∨ (s.program.length : Int) ≤ s.ip) →
    ∃ t, step s = .next t ∧ t = { s with status := .halted .endOfProgram } ∧ t.verdict = .success

/-- R131; an open parameter (the spec's decision D4), log 8. -/
def Obligations.OverflowDependsOnSigns : Prop :=
  ∀ a b r a' b' r' : Int, a.sign = a'.sign → b.sign = b'.sign → r.sign = r'.sign →
    overflowAdd a b r = overflowAdd a' b' r' ∧ overflowSub a b r = overflowSub a' b' r'

/-- The frame of the storing instructions; the address comes from destIndex, as the meanings use it. -/
def Obligations.StoringFrame : Prop :=
  ∀ (s t : State) (op1 op2 : Token) (i : Instr), i = .mov op1 op2 ∨ i = .add op1 op2 ∨ i = .sub op1 op2 →
    exec i s = .next t →
    ∃ d : Int, destIndex op2 = .next d ∧
      (∀ k : Fin 8, d ≠ k → t.regs[k] = s.regs[k]) ∧
      (∀ a : Nat, d ≠ 8 + a → Memory.read t.mem a = Memory.read s.mem a) ∧
      t.ip = s.ip ∧ t.status = s.status ∧ t.jumped = s.jumped ∧ t.program = s.program ∧ t.memSize = s.memSize ∧
      (i = .mov op1 op2 → t.flags = s.flags)

/-- The frame of the instructions without a destination (R82). -/
def Obligations.NonStoringFrame : Prop :=
  ∀ (s t : State) (i : Instr), i.destToken = none → exec i s = .next t →
    t.regs = s.regs ∧ (∀ a : Nat, Memory.read t.mem a = Memory.read s.mem a) ∧ t.mem = s.mem ∧
    t.program = s.program ∧ t.memSize = s.memSize ∧
    (∀ a b, i = .cmp a b → t.flags.of = s.flags.of ∧ t.ip = s.ip ∧ t.jumped = s.jumped ∧ t.status = s.status) ∧
    (∀ a, i = .jmp a ∨ i = .je a → t.flags = s.flags ∧ t.status = s.status) ∧
    (∀ a, i = .je a → s.flags.zf = false → t = s) ∧
    (∀ m, i = .other m → t.flags = s.flags ∧ t.ip = s.ip ∧ t.jumped = s.jumped)

/-- R27; the values are in R132 to R134. -/
def Obligations.FlagWriters : Prop :=
  ∀ (s t : State) (i : Instr), exec i s = .next t →
    (∀ a b, i = .add a b ∨ i = .sub a b → ∀ f, exec i { s with flags := f } = .next t) ∧
    (∀ a b, i = .cmp a b → t.flags.of = s.flags.of ∧
      ∀ f, exec i { s with flags := f } = .next { t with flags := { t.flags with of := f.of } }) ∧
    (∀ a b, i = .mov a b → t.flags = s.flags) ∧ (∀ a, i = .jmp a ∨ i = .je a → t.flags = s.flags) ∧
    (∀ m, i = .other m → t.flags = s.flags)

/-- R25. -/
def Obligations.RegisterReadersAndWriters : Prop :=
  (∀ (s t : State) (i : Instr) (k : Fin 8), exec i s = .next t → t.regs[k] ≠ s.regs[k] →
    ∃ op1 op2, (i = .mov op1 op2 ∨ i = .add op1 op2 ∨ i = .sub op1 op2) ∧ destIndex op2 = .next (k : Int)) ∧
  ∀ (s : State) (k : Fin 8), resolve s (.reg k) = .next (s.regs[k].toNat : Int)

/-- R31. -/
def Obligations.IpChangesOnlyByJumpOrAdvance : Prop :=
  (∀ s t : State, step s = .next t →
    t.ip = s.ip ∧ (∃ c, t.status = .halted c) ∨ t.ip = s.ip + 1 ∨
    ∃ r a, 0 ≤ s.ip ∧ s.program[s.ip.toNat]? = some r ∧ resolve s a = .next t.ip ∧
      (decode r = .ok (.jmp a) ∨ decode r = .ok (.je a) ∧ s.flags.zf = true)) ∧
  (∀ (s t : State) (i : Instr), exec i s = .next t →
    t.ip = s.ip ∨ ∃ a, i = .jmp a ∨ i = .je a ∧ s.flags.zf = true) ∧
  (∀ (s t : State) (i : Instr) (k : Int), exec i s = .next t →
    ∃ u, exec i { s with ip := k } = .next u ∧ { u with ip := t.ip } = t)

/-- R135, which the spec derives. -/
def Obligations.RegisterArithmeticLaws : Prop :=
  ∀ (s : State) (i j : Fin 8),
    (∃ t, exec (.add (.reg i) (.reg j)) s = .next t ∧ t.regs = s.regs.set j (s.regs[i] + s.regs[j]) ∧
      (t.flags.cf = true ↔ 2 ^ 32 ≤ s.regs[i].toNat + s.regs[j].toNat) ∧
      (t.flags.zf = true ↔ s.regs[i] = 0 ∧ s.regs[j] = 0) ∧ t.flags.nf = false) ∧
    (∃ t, exec (.sub (.reg i) (.reg j)) s = .next t ∧ t.regs = s.regs.set j (s.regs[i] - s.regs[j]) ∧
      (t.flags.cf = true ↔ s.regs[i] < s.regs[j]) ∧ (t.flags.nf = true ↔ s.regs[i] < s.regs[j]) ∧
      (t.flags.zf = true ↔ s.regs[i] = s.regs[j])) ∧
    (∃ t, exec (.cmp (.reg i) (.reg j)) s = .next t ∧
      (t.flags.cf = true ↔ s.regs[i] < s.regs[j]) ∧ (t.flags.nf = true ↔ s.regs[i] < s.regs[j]) ∧
      (t.flags.zf = true ↔ s.regs[i] = s.regs[j]))

/-- R195, which the spec derives from operands being resolved before the write. -/
def Obligations.SourceAndDestinationOverlap : Prop :=
  ∀ (s : State) (i : Fin 8),
    (∃ t, exec (.add (.reg i) (.reg i)) s = .next t ∧ t.regs = s.regs.set i (2 * s.regs[i])) ∧
    (∃ t, exec (.sub (.reg i) (.reg i)) s = .next t ∧ t.regs = s.regs.set i 0 ∧
      t.flags.zf = true ∧ t.flags.cf = false ∧ t.flags.nf = false) ∧
    exec (.mov (.reg i) (.reg i)) s = .next s

/-- The property S2 with the spec's own derived remark on add's ZF. -/
def Obligations.AddThenCmpWithZero : Prop :=
  ∀ (s : State) (op1 : Token) (a : Int) (j : Fin 8), resolve s op1 = .next a →
    ∃ t u, exec (.add op1 (.reg j)) s = .next t ∧ exec (.cmp (.reg j) (.num 0)) t = .next u ∧
      (t.flags.zf = true ↔ a + s.regs[j].toNat = 0) ∧ (u.flags.zf = true ↔ (a + s.regs[j].toNat) % 2 ^ 32 = 0)

/-- The property S4, over two steps. -/
def Obligations.CmpThenJe : Prop :=
  ∀ (s : State) (r q : Record) (op1 op2 op3 : Token) (a b c : Int), s.status = .running →
    Program.WellFormed s.memSize s.program → 0 ≤ s.ip →
    s.program[s.ip.toNat]? = some r → s.program[s.ip.toNat + 1]? = some q →
    decode r = .ok (.cmp op1 op2) → decode q = .ok (.je op3) →
    resolve s op1 = .next a → resolve s op2 = .next b → resolve s op3 = .next c →
    ∃ t, Sys2Proof.core.run 2 s = .next t ∧ t.ip = (if a = b then c else s.ip + 2) ∧
      t.regs = s.regs ∧ t.mem = s.mem ∧ t.flags.of = s.flags.of ∧ t.status = .running

/-- The property S1 as conflict C5 restricts it. -/
def Obligations.MovThenReadBack : Prop :=
  ∀ (s : State) (i : Fin 8),
    (∀ j : Fin 8, ∃ t, exec (.mov (.reg i) (.reg j)) s = .next t ∧ t.regs[j] = s.regs[i]) ∧
    (∀ j : Nat, j < s.memSize → Memory.wf s.mem = true →
      ∃ t b, exec (.mov (.reg i) (.num (8 + j))) s = .next t ∧ t.readMem j = some b ∧ b = s.regs[i].setWidth 8 ∧
        (s.regs[i].toNat < 256 → b.toNat = s.regs[i].toNat))

/-- R160 and R86: an abnormal condition halts the run, which is a next state, or the program is refused and has no
run. The refusal at every running step and the index and check it reports are log 9, the next state of a
halted state is log 7: both the model's. -/
def Obligations.NoFaultAndRefusalOnlyOfIllFormed : Prop :=
  ∀ s : State,
    (∀ e, step s ≠ .fault e) ∧
    (s.status = .running →
      ((∃ t, step s = .next t) ↔ Program.WellFormed s.memSize s.program) ∧
      (¬ Program.WellFormed s.memSize s.program →
        ∃ k c r, step s = .refused (.illFormedProgram k c) ∧ s.program[k]? = some r ∧
          r.failedCheck s.memSize = some c ∧
          ∀ j q, j < k → s.program[j]? = some q → q.failedCheck s.memSize = none)) ∧
    (∀ c, s.status = .halted c → ∃ t, step s = .next t)

/-- R103: "Resolution cannot fail in a well-formed program", and R54: the core never writes outside the space. -/
def Obligations.WellFormedInstructionCompletes : Prop :=
  ∀ (s : State) (i : Instr), i.failedCheck s.memSize = none → ∃ t, exec i s = .next t

/-- R107, R108 and R86. The stutter of a halted state is the model's, log 7. -/
def Obligations.WellFormedRunNeverStops : Prop :=
  ∀ (k : Nat) (s : State), Program.WellFormed s.memSize s.program →
    ∃ t, Sys2Proof.core.run k s = .next t ∧ t.program = s.program ∧ t.memSize = s.memSize

/-- R38. -/
def Obligations.ProgramStoreNeverWritten : Prop :=
  (∀ (k : Nat) (s t : State), Sys2Proof.core.run k s = .next t → t.program = s.program) ∧
  (∀ (s t : State) (d v : Int), writeDest d v s = .next t → t.program = s.program) ∧
  (∀ (s : State) (k : Nat), s.ip = k → s.fetch = s.program[k]?)

/-- R108: absorbing; the stutter is the model's, log 7. -/
def Obligations.HaltedStateIsFinal : Prop :=
  ∀ (k : Nat) (s : State) (c : HaltCause), s.status = .halted c → Sys2Proof.core.run k s = .next s

/-- R109 and the corner case of R151, which rest on R105 (the spec's decision D9) and R108. That the latch is
clear again between the steps is the model's choice, log 6 (R34 gives it no value there). -/
def Obligations.SelfJumpNeverEnds : Prop :=
  ∀ (k : Nat) (s : State) (r : Record) (a : Token), s.status = .running → s.jumped = false →
    Program.WellFormed s.memSize s.program → 0 ≤ s.ip → s.program[s.ip.toNat]? = some r →
    (decode r = .ok (.jmp a) ∨ decode r = .ok (.je a) ∧ s.flags.zf = true) → resolve s a = .next s.ip →
    Sys2Proof.core.run k s = .next s

/-- R52 and R65, which the spec derives: no instruction reads memory. -/
def Obligations.MemoryHasNoInfluence : Prop :=
  ∀ (k : Nat) (s u : State), s.AgreeExceptMem u →
    Result.Related State.AgreeExceptMem (Sys2Proof.core.run k s) (Sys2Proof.core.run k u)

/-- R28. -/
def Obligations.CarryOverflowNegativeHaveNoInfluence : Prop :=
  (∀ (k : Nat) (s u : State), s.AgreeExceptUnreadFlags u →
    Result.Related State.AgreeExceptUnreadFlags (Sys2Proof.core.run k s) (Sys2Proof.core.run k u)) ∧
  (∀ (s t : State) (i : Instr) (f : Flags), (∀ a, i ≠ .je a) → exec i s = .next t →
    ∃ u, exec i { s with flags := f } = .next u ∧ { u with flags := t.flags } = t)

/-- R71 and R73 (decisions D24 and D26 of the spec). -/
def Obligations.IgnoredFieldsHaveNoInfluence : Prop :=
  ∀ (k : Nat) (s : State) (p : Program), Program.AgreeExceptIgnored s.program p →
    Result.Related (fun t u => { t with program := p } = u ∧ t.program = s.program)
      (Sys2Proof.core.run k s) (Sys2Proof.core.run k { s with program := p })

/-- The model's own invariant (logs 4, 6) over R50, R53 and R34. -/
def Obligations.StepKeepsInvariant : Prop :=
  ∀ s t : State, s.Inv → step s = .next t → t.Inv

/-- The base of StepKeepsInvariant; reset's values are the model's, logs 3 to 6. -/
def Obligations.StartMeetsInvariant : Prop :=
  State.reset.Inv ∧
  ∀ (n : Nat) (init : Init) (p : Program), Memory.wf init.mem = true → Memory.within n init.mem = true →
    (State.start n init p).Inv

/-- R33, R101, R102, R161 and R163, as an invariant. -/
def Obligations.StepKeepsStatusTruthful : Prop :=
  (∀ (n : Nat) (init : Init) (p : Program), (State.start n init p).StatusInv) ∧
  (∀ (k : Nat) (s t : State), s.StatusInv → Sys2Proof.core.run k s = .next t → t.StatusInv)

/-- R44 and R190; that the seed covers the flags is the spec's own decision D6. -/
def Obligations.StartOfRun : Prop :=
  ∀ (n : Nat) (init : Init) (p : Program),
    (State.start n init p).ip = 0 ∧ (State.start n init p).status = .running ∧
    (State.start n init p).regs = init.regs ∧ (State.start n init p).mem = init.mem ∧
    (State.start n init p).flags = init.flags ∧ (State.start n init p).program = p ∧
    (State.start n init p).memSize = n ∧
    step (State.start n init []) = .next { State.start n init [] with status := .halted .endOfProgram }

/-- The model's own transport form of a record, log 11: the spec gives a record no bits. -/
def Obligations.TableWordRunsAsDecoded : Prop :=
  ∀ (s t : State) (nbits w : Nat) (i : Instr), decodeTableWord nbits w = some i → i.failedCheck s.memSize = none →
    exec i { s.withFetchWord nbits w with jumped := false } = .next t →
    (s.withFetchWord nbits w).ip = 0 ∧ (s.withFetchWord nbits w).regs = s.regs ∧
    step (s.withFetchWord nbits w) = .next t.finish
end

