-- ==== Sys2Proof/Laws/Decode.lean ====
section
/-! SUPPORT. What decoding and the program check can do, said once (30_encoding.md R72, R82, R85). -/

namespace Sys2Proof

/-- A mnemonic is not recognised exactly where it is none of the six strings (R72). -/
theorem Mnemonic.ofText_eq_none {s : String} : Mnemonic.ofText s = none ↔ s ∉ recognisedMnemonics := by
  simp only [Mnemonic.ofText, recognisedMnemonics, List.mem_cons, List.not_mem_nil, or_false, not_or]
  split_ifs <;> simp_all

/-- What a decoded record is: one with an unrecognised mnemonic, or a size tag and the operands its mnemonic
takes. -/
theorem decode_cases {r : Record} {i : Instr} (h : decode r = .ok i) :
    (Mnemonic.ofText r.mnem = none ∧ i = .other r.mnem) ∨
    ∃ m tag args, Mnemonic.ofText r.mnem = some m ∧ r.ops = tag :: args ∧ decodeOperands m args = .ok i := by
  unfold decode at h
  split at h
  · exact .inl ⟨‹_›, by cases h; rfl⟩
  · split at h
    · cases h
    · exact .inr ⟨_, _, _, ‹_›, ‹_›, h⟩

/-- A decoded recognised mnemonic has exactly the operands R82 gives it. -/
theorem decodeOperands_cases {m : Mnemonic} {args : List Token} {i : Instr} (h : decodeOperands m args = .ok i) :
    (∃ a b, args = [a, b] ∧
      (m = .mov ∧ i = .mov a b ∨ m = .add ∧ i = .add a b ∨ m = .sub ∧ i = .sub a b ∨ m = .cmp ∧ i = .cmp a b)) ∨
    (∃ a, args = [a] ∧ (m = .jmp ∧ i = .jmp a ∨ m = .je ∧ i = .je a)) := by
  unfold decodeOperands at h
  split at h <;> cases h <;> simp

/-- The opcode byte and the content of the size tag take no part in decoding (R71, R73). -/
theorem decode_of_agreeExceptIgnored {r q : Record} (h : Machine.Record.AgreeExceptIgnored r q) :
    decode r = decode q := by
  obtain ⟨hm, hl, ht⟩ := h
  unfold decode
  rw [hm]
  split
  · rfl
  · rcases hr : r.ops with _ | ⟨a, as⟩ <;> rcases hq : q.ops with _ | ⟨b, bs⟩ <;> simp_all

/-- The operand checks, all passed (R85). -/
theorem Instr.failedCheck_eq_none {n : Nat} {i : Instr} :
    i.failedCheck n = none ↔
      (∀ t ∈ i.operands, tokenOk t = true ∧ regOk t = true ∧ immOk t = true) ∧
      (∀ t, i.destToken = some t → destOk n t = true) := by
  have hd : (∀ t, i.destToken = some t → destOk n t = true) ↔ i.destToken.all (destOk n) = true := by
    cases i.destToken <;> simp
  have ha : (∀ t ∈ i.operands, tokenOk t = true ∧ regOk t = true ∧ immOk t = true) ↔
      i.operands.all tokenOk = true ∧ i.operands.all regOk = true ∧ i.operands.all immOk = true := by
    simp only [List.all_eq_true]
    exact ⟨fun h => ⟨fun t m => (h t m).1, fun t m => (h t m).2.1, fun t m => (h t m).2.2⟩,
      fun h t m => ⟨h.1 t m, h.2.1 t m, h.2.2 t m⟩⟩
  rw [ha, hd, Instr.failedCheck]
  cases i.operands.all tokenOk <;> cases i.operands.all regOk <;> cases i.operands.all immOk <;>
    cases i.destToken.all (destOk n) <;> simp

theorem Program.defectFrom_eq_none {n k : Nat} {p : Program} :
    Program.defectFrom n k p = none ↔ ∀ r ∈ p, r.failedCheck n = none := by
  induction p generalizing k with
  | nil => simp [Program.defectFrom]
  | cons r p ih =>
    unfold Program.defectFrom
    cases hr : r.failedCheck n <;> simp [hr, ih]

/-- A program is well-formed exactly where every record passes every check (R85). -/
theorem Program.wellFormed_iff {n : Nat} {p : Program} :
    Program.WellFormed n p ↔ ∀ r ∈ p, r.failedCheck n = none :=
  Program.defectFrom_eq_none

/-- The defect named is the program's first: record `k` fails check `c`, and every record before it passes. -/
theorem Program.defectFrom_eq_some {n k : Nat} {p : Program} {d : Nat × Check}
    (h : Program.defectFrom n k p = some d) :
    ∃ j r, d.1 = k + j ∧ p[j]? = some r ∧ r.failedCheck n = some d.2 ∧
      ∀ i q, i < j → p[i]? = some q → q.failedCheck n = none := by
  induction p generalizing k with
  | nil => simp [Program.defectFrom] at h
  | cons r p ih =>
    unfold Program.defectFrom at h
    split at h
    · cases h; exact ⟨0, r, by simp, by simp, ‹_›, fun i q hi => by omega⟩
    · rename_i hr
      obtain ⟨j, q, hd, hq, hf, hbefore⟩ := ih h
      refine ⟨j + 1, q, by omega, by simpa using hq, hf, fun i q' hi hq' => ?_⟩
      cases i with
      | zero => simp at hq'; rw [← hq']; exact hr
      | succ i => exact hbefore i q' (by omega) (by simpa using hq')

/-- Why a program that is not well-formed is refused: its first ill-formed record and the check that record fails. -/
theorem Program.defect_of_not_wellFormed {n : Nat} {p : Program} (h : ¬ Program.WellFormed n p) :
    ∃ k c r, Program.defect n p = some (k, c) ∧ p[k]? = some r ∧ r.failedCheck n = some c ∧
      ∀ j q, j < k → p[j]? = some q → q.failedCheck n = none := by
  obtain ⟨⟨k, c⟩, hd⟩ := Option.ne_none_iff_exists'.mp h
  obtain ⟨j, r, hj, hr, hf, hbefore⟩ := Program.defectFrom_eq_some hd
  obtain rfl : k = j := by simpa using hj
  exact ⟨k, c, r, hd, hr, hf, hbefore⟩

/-- A record of a well-formed program decodes, to an instruction that passes the operand checks. -/
theorem Record.decode_of_failedCheck_eq_none {n : Nat} {r : Record} (h : r.failedCheck n = none) :
    ∃ i, decode r = .ok i ∧ i.failedCheck n = none := by
  unfold Record.failedCheck at h
  split at h
  · exact ⟨_, ‹_›, h⟩
  · cases h

end Sys2Proof
end

