-- ==== Sys2Proof/Laws/State.lean ====
section
/-! SUPPORT. One lemma per field per update of the state, so that no proof unfolds a record update. -/

namespace Sys2Proof.Machine

@[simp] theorem State.writeReg_regs (s : State) (i : Fin 8) (w : Word) : (s.writeReg i w).regs = s.regs.set i w := rfl
@[simp] theorem State.writeReg_mem (s : State) (i : Fin 8) (w : Word) : (s.writeReg i w).mem = s.mem := rfl
@[simp] theorem State.writeReg_memSize (s : State) (i : Fin 8) (w : Word) : (s.writeReg i w).memSize = s.memSize := rfl
@[simp] theorem State.writeReg_flags (s : State) (i : Fin 8) (w : Word) : (s.writeReg i w).flags = s.flags := rfl
@[simp] theorem State.writeReg_ip (s : State) (i : Fin 8) (w : Word) : (s.writeReg i w).ip = s.ip := rfl
@[simp] theorem State.writeReg_status (s : State) (i : Fin 8) (w : Word) : (s.writeReg i w).status = s.status := rfl
@[simp] theorem State.writeReg_jumped (s : State) (i : Fin 8) (w : Word) : (s.writeReg i w).jumped = s.jumped := rfl
@[simp] theorem State.writeReg_program (s : State) (i : Fin 8) (w : Word) : (s.writeReg i w).program = s.program := rfl

@[simp] theorem State.writeMem_regs (s : State) (j : Nat) (v : Byte) : (s.writeMem j v).regs = s.regs := rfl
@[simp] theorem State.writeMem_mem (s : State) (j : Nat) (v : Byte) : (s.writeMem j v).mem = Memory.write s.mem j v := rfl
@[simp] theorem State.writeMem_memSize (s : State) (j : Nat) (v : Byte) : (s.writeMem j v).memSize = s.memSize := rfl
@[simp] theorem State.writeMem_flags (s : State) (j : Nat) (v : Byte) : (s.writeMem j v).flags = s.flags := rfl
@[simp] theorem State.writeMem_ip (s : State) (j : Nat) (v : Byte) : (s.writeMem j v).ip = s.ip := rfl
@[simp] theorem State.writeMem_status (s : State) (j : Nat) (v : Byte) : (s.writeMem j v).status = s.status := rfl
@[simp] theorem State.writeMem_jumped (s : State) (j : Nat) (v : Byte) : (s.writeMem j v).jumped = s.jumped := rfl
@[simp] theorem State.writeMem_program (s : State) (j : Nat) (v : Byte) : (s.writeMem j v).program = s.program := rfl

@[simp] theorem State.setFlags_regs (s : State) (f : Flags) : (s.setFlags f).regs = s.regs := rfl
@[simp] theorem State.setFlags_mem (s : State) (f : Flags) : (s.setFlags f).mem = s.mem := rfl
@[simp] theorem State.setFlags_memSize (s : State) (f : Flags) : (s.setFlags f).memSize = s.memSize := rfl
@[simp] theorem State.setFlags_flags (s : State) (f : Flags) : (s.setFlags f).flags = f := rfl
@[simp] theorem State.setFlags_ip (s : State) (f : Flags) : (s.setFlags f).ip = s.ip := rfl
@[simp] theorem State.setFlags_status (s : State) (f : Flags) : (s.setFlags f).status = s.status := rfl
@[simp] theorem State.setFlags_jumped (s : State) (f : Flags) : (s.setFlags f).jumped = s.jumped := rfl
@[simp] theorem State.setFlags_program (s : State) (f : Flags) : (s.setFlags f).program = s.program := rfl

@[simp] theorem State.jumpTo_regs (s : State) (t : Int) : (s.jumpTo t).regs = s.regs := rfl
@[simp] theorem State.jumpTo_mem (s : State) (t : Int) : (s.jumpTo t).mem = s.mem := rfl
@[simp] theorem State.jumpTo_memSize (s : State) (t : Int) : (s.jumpTo t).memSize = s.memSize := rfl
@[simp] theorem State.jumpTo_flags (s : State) (t : Int) : (s.jumpTo t).flags = s.flags := rfl
@[simp] theorem State.jumpTo_ip (s : State) (t : Int) : (s.jumpTo t).ip = t := rfl
@[simp] theorem State.jumpTo_status (s : State) (t : Int) : (s.jumpTo t).status = s.status := rfl
@[simp] theorem State.jumpTo_jumped (s : State) (t : Int) : (s.jumpTo t).jumped = true := rfl
@[simp] theorem State.jumpTo_program (s : State) (t : Int) : (s.jumpTo t).program = s.program := rfl

@[simp] theorem State.halt_regs (s : State) (c : HaltCause) : (s.halt c).regs = s.regs := rfl
@[simp] theorem State.halt_mem (s : State) (c : HaltCause) : (s.halt c).mem = s.mem := rfl
@[simp] theorem State.halt_memSize (s : State) (c : HaltCause) : (s.halt c).memSize = s.memSize := rfl
@[simp] theorem State.halt_flags (s : State) (c : HaltCause) : (s.halt c).flags = s.flags := rfl
@[simp] theorem State.halt_ip (s : State) (c : HaltCause) : (s.halt c).ip = s.ip := rfl
@[simp] theorem State.halt_status (s : State) (c : HaltCause) : (s.halt c).status = .halted c := rfl
@[simp] theorem State.halt_jumped (s : State) (c : HaltCause) : (s.halt c).jumped = s.jumped := rfl
@[simp] theorem State.halt_program (s : State) (c : HaltCause) : (s.halt c).program = s.program := rfl

@[simp] theorem State.beginInstr_regs (s : State) : (s.beginInstr).regs = s.regs := rfl
@[simp] theorem State.beginInstr_mem (s : State) : (s.beginInstr).mem = s.mem := rfl
@[simp] theorem State.beginInstr_memSize (s : State) : (s.beginInstr).memSize = s.memSize := rfl
@[simp] theorem State.beginInstr_flags (s : State) : (s.beginInstr).flags = s.flags := rfl
@[simp] theorem State.beginInstr_ip (s : State) : (s.beginInstr).ip = s.ip := rfl
@[simp] theorem State.beginInstr_status (s : State) : (s.beginInstr).status = s.status := rfl
@[simp] theorem State.beginInstr_jumped (s : State) : (s.beginInstr).jumped = false := rfl
@[simp] theorem State.beginInstr_program (s : State) : (s.beginInstr).program = s.program := rfl

@[simp] theorem State.loadProgram_regs (s : State) (p : Program) : (s.loadProgram p).regs = s.regs := rfl
@[simp] theorem State.loadProgram_mem (s : State) (p : Program) : (s.loadProgram p).mem = s.mem := rfl
@[simp] theorem State.loadProgram_memSize (s : State) (p : Program) : (s.loadProgram p).memSize = s.memSize := rfl
@[simp] theorem State.loadProgram_flags (s : State) (p : Program) : (s.loadProgram p).flags = s.flags := rfl
@[simp] theorem State.loadProgram_ip (s : State) (p : Program) : (s.loadProgram p).ip = 0 := rfl
@[simp] theorem State.loadProgram_status (s : State) (p : Program) : (s.loadProgram p).status = .running := rfl
@[simp] theorem State.loadProgram_jumped (s : State) (p : Program) : (s.loadProgram p).jumped = s.jumped := rfl
@[simp] theorem State.loadProgram_program (s : State) (p : Program) : (s.loadProgram p).program = p := rfl

@[simp] theorem State.start_regs (n : Nat) (i : Init) (p : Program) : (State.start n i p).regs = i.regs := rfl
@[simp] theorem State.start_mem (n : Nat) (i : Init) (p : Program) : (State.start n i p).mem = i.mem := rfl
@[simp] theorem State.start_memSize (n : Nat) (i : Init) (p : Program) : (State.start n i p).memSize = n := rfl
@[simp] theorem State.start_flags (n : Nat) (i : Init) (p : Program) : (State.start n i p).flags = i.flags := rfl
@[simp] theorem State.start_ip (n : Nat) (i : Init) (p : Program) : (State.start n i p).ip = 0 := rfl
@[simp] theorem State.start_status (n : Nat) (i : Init) (p : Program) : (State.start n i p).status = .running := rfl
@[simp] theorem State.start_jumped (n : Nat) (i : Init) (p : Program) : (State.start n i p).jumped = false := rfl
@[simp] theorem State.start_program (n : Nat) (i : Init) (p : Program) : (State.start n i p).program = p := rfl

/-! The advance and the end of a step write `ip` and the latch only. -/

@[simp] theorem State.advance_regs (s : State) : s.advance.regs = s.regs := by
  unfold State.advance; split <;> rfl

@[simp] theorem State.finish_regs (s : State) : s.finish.regs = s.regs := by
  unfold State.finish; split <;> simp

@[simp] theorem State.advance_mem (s : State) : s.advance.mem = s.mem := by
  unfold State.advance; split <;> rfl

@[simp] theorem State.finish_mem (s : State) : s.finish.mem = s.mem := by
  unfold State.finish; split <;> simp

@[simp] theorem State.advance_memSize (s : State) : s.advance.memSize = s.memSize := by
  unfold State.advance; split <;> rfl

@[simp] theorem State.finish_memSize (s : State) : s.finish.memSize = s.memSize := by
  unfold State.finish; split <;> simp

@[simp] theorem State.advance_flags (s : State) : s.advance.flags = s.flags := by
  unfold State.advance; split <;> rfl

@[simp] theorem State.finish_flags (s : State) : s.finish.flags = s.flags := by
  unfold State.finish; split <;> simp

@[simp] theorem State.advance_status (s : State) : s.advance.status = s.status := by
  unfold State.advance; split <;> rfl

@[simp] theorem State.finish_status (s : State) : s.finish.status = s.status := by
  unfold State.finish; split <;> simp

@[simp] theorem State.advance_program (s : State) : s.advance.program = s.program := by
  unfold State.advance; split <;> rfl

@[simp] theorem State.finish_program (s : State) : s.finish.program = s.program := by
  unfold State.finish; split <;> simp

theorem State.advance_ip (s : State) : s.advance.ip = if s.jumped then s.ip else s.ip + 1 := by
  unfold State.advance; split <;> rfl

@[simp] theorem State.advance_jumped (s : State) : s.advance.jumped = false := by
  unfold State.advance
  split
  · rfl
  · simp_all

/-- A halted state is left alone at the end of a step. -/
theorem State.finish_of_halted {s : State} {c : HaltCause} (h : s.status = .halted c) : s.finish = s := by
  simp [State.finish, h]

/-- A running state advances at the end of a step. -/
theorem State.finish_of_running {s : State} (h : s.status = .running) : s.finish = s.advance := by
  simp [State.finish, h]

end Sys2Proof.Machine
end

