-- ==== Sys2Proof/Laws/Operands.lean ====
section
/-! SUPPORT. What resolving an operand, resolving a destination and the store primitive can do, said once (30_encoding.md R76, R80; 20_memory.md R53). -/

namespace Sys2Proof.Machine

@[simp] theorem Result.bind_next {α β : Type} (a : α) (f : α → Result β) :
    Result.bind (.next a) f = f a := rfl

/-- Peel two computations apart. -/
theorem Result.bind_eq_next {α β : Type} {r : Result α} {f : α → Result β} {b : β} :
    Result.bind r f = .next b ↔ ∃ a, r = .next a ∧ f a = .next b := by
  cases r <;> simp [Result.bind]

/-- A faulting chain faults in its first or in its second part. -/
theorem Result.bind_eq_fault {α β : Type} {r : Result α} {f : α → Result β} {e : Fault} :
    Result.bind r f = .fault e ↔ r = .fault e ∨ ∃ a, r = .next a ∧ f a = .fault e := by
  cases r <;> simp [Result.bind]

/-- The value an operand resolves to: a register's, or the literal's. -/
theorem resolve_cases {s : State} {t : Token} {v : Int} (h : resolve s t = .next v) :
    (∃ i : Fin 8, t = .reg i ∧ v = (s.regs[i].toNat : Int)) ∨ literalValue t = some v := by
  cases t with
  | reg i =>
    simp only [resolve, Result.bind_eq_next, State.readReg] at h
    obtain ⟨w, hw, hv⟩ := h
    split at hw
    · cases hw; cases hv; exact .inl ⟨⟨i, ‹_›⟩, rfl, rfl⟩
    · cases hw
  | num w => exact .inr (by simpa [resolve, literal, literalValue] using h)
  | hex w =>
    simp only [resolve, literal] at h
    split at h
    · cases h; exact .inr ‹_›
    · cases h
  | text w =>
    simp only [resolve, literal] at h
    split at h
    · cases h; exact .inr ‹_›
    · cases h

@[simp] theorem resolve_reg (s : State) (i : Fin 8) :
    resolve s (.reg i) = .next (s.regs[i].toNat : Int) := by
  simp [resolve, State.readReg]

theorem resolve_of_literalValue {s : State} {t : Token} {v : Int} (h : literalValue t = some v) :
    resolve s t = .next v := by
  cases t with
  | reg i => cases h
  | num w => simp only [resolve, literal, h]
  | hex w => simp only [resolve, literal, h]
  | text w => simp only [resolve, literal, h]

/-- Resolution cannot fail on a token that passes WF-token and WF-reg (40_sequencer.md R103). -/
theorem resolve_of_ok {t : Token} (s : State) (ht : tokenOk t = true) (hr : regOk t = true) :
    ∃ v, resolve s t = .next v := by
  cases t with
  | reg i =>
    have hi : i < 8 := by simpa [regOk] using hr
    exact ⟨_, resolve_reg s ⟨i, hi⟩⟩
  | num v => exact ⟨v, resolve_of_literalValue rfl⟩
  | hex h =>
    obtain ⟨n, hn⟩ := Option.isSome_iff_exists.mp ht
    exact ⟨n, resolve_of_literalValue (by simp [literalValue, hn])⟩
  | text w =>
    obtain ⟨v, hv⟩ := Option.isSome_iff_exists.mp ht
    exact ⟨v, resolve_of_literalValue (by simp [literalValue, hv])⟩

/-- Resolution reads registers only (R79). -/
theorem resolve_congr {s u : State} (h : s.regs = u.regs) (t : Token) : resolve s t = resolve u t := by
  cases t <;> simp [resolve, State.readReg, h]

theorem destIndex_eq_next {t : Token} {d : Int} :
    destIndex t = .next d ↔ destOf t = some d ∧ regOk t = true := by
  unfold destIndex
  cases destOf t with
  | none => simp
  | some e => cases regOk t <;> simp

/-- The destination of a token that passes WF-reg and WF-dest resolves, inside the space (R54). -/
theorem destIndex_of_ok {n : Nat} {t : Token} (hr : regOk t = true) (hd : destOk n t = true) :
    ∃ d, destIndex t = .next d ∧ 0 ≤ d ∧ d < 8 + n := by
  unfold destOk at hd
  split at hd
  · exact ⟨_, destIndex_eq_next.mpr ⟨‹_›, hr⟩, by simpa [destInSpace] using hd⟩
  · cases hd

theorem writeDest_register (s : State) (i : Fin 8) (v : Int) :
    writeDest i v s = .next (s.writeReg i (BitVec.ofInt 32 v)) := by
  have hi : (0 : Int) ≤ (i : Nat) ∧ ((i : Nat) : Int) < 8 := by omega
  simp [writeDest, hi]

theorem writeDest_cell {s : State} {j : Nat} (hj : j < s.memSize) (v : Int) :
    writeDest (8 + j) v s = .next (s.writeMem j (BitVec.ofInt 8 v)) := by
  have h1 : ¬ ((0 : Int) ≤ 8 + j ∧ (8 + j : Int) < 8) := by omega
  have h2 : (8 : Int) ≤ 8 + j ∧ (8 + j : Int) < 8 + s.memSize := by omega
  have h3 : ((8 : Int) + j - 8).toNat = j := by omega
  simp only [writeDest, h1, h2, h3, dite_false, and_self, if_true]

/-- The store primitive writes one register or one cell, or faults (R53). -/
theorem writeDest_cases {d v : Int} {s t : State} (h : writeDest d v s = .next t) :
    (∃ i : Fin 8, d = i ∧ t = s.writeReg i (BitVec.ofInt 32 v)) ∨
    (∃ j : Nat, j < s.memSize ∧ d = 8 + j ∧ t = s.writeMem j (BitVec.ofInt 8 v)) := by
  unfold writeDest at h
  split at h
  · rename_i hd
    cases h
    exact .inl ⟨⟨d.toNat, by omega⟩, by simp [hd.1], rfl⟩
  · split at h
    · rename_i hd
      cases h
      exact .inr ⟨(d - 8).toNat, by omega, by omega, rfl⟩
    · cases h

/-- Inside the space the store primitive answers a next state. -/
theorem writeDest_of_inSpace {d v : Int} {s : State} (h0 : 0 ≤ d) (h1 : d < 8 + s.memSize) :
    ∃ t, writeDest d v s = .next t := by
  unfold writeDest
  split
  · exact ⟨_, rfl⟩
  · rw [if_pos (by omega)]; exact ⟨_, rfl⟩

end Sys2Proof.Machine
end

