-- ==== Sys2Proof/Laws/Exec.lean ====
section
/-! SUPPORT. What each meaning, and a step, can do, said once: if it answers a next state, then one of these. -/

namespace Sys2Proof.Machine

theorem execMov_cases {a b : Token} {s t : State} (h : execMov a b s = .next t) :
    ∃ v d, resolve s a = .next v ∧ destIndex b = .next d ∧ writeDest d v s = .next t := by
  obtain ⟨v, hv, h⟩ := Result.bind_eq_next.mp h
  obtain ⟨d, hd, h⟩ := Result.bind_eq_next.mp h
  exact ⟨v, d, hv, hd, h⟩

theorem execAdd_cases {a b : Token} {s t : State} (h : execAdd a b s = .next t) :
    ∃ v w d, resolve s a = .next v ∧ resolve s b = .next w ∧ destIndex b = .next d ∧
      writeDest d (v + w) (s.setFlags (addFlags v w)) = .next t := by
  obtain ⟨v, hv, h⟩ := Result.bind_eq_next.mp h
  obtain ⟨w, hw, h⟩ := Result.bind_eq_next.mp h
  obtain ⟨d, hd, h⟩ := Result.bind_eq_next.mp h
  exact ⟨v, w, d, hv, hw, hd, h⟩

theorem execSub_cases {a b : Token} {s t : State} (h : execSub a b s = .next t) :
    ∃ v w d, resolve s a = .next v ∧ resolve s b = .next w ∧ destIndex b = .next d ∧
      writeDest d (v - w) (s.setFlags (subFlags v w)) = .next t := by
  obtain ⟨v, hv, h⟩ := Result.bind_eq_next.mp h
  obtain ⟨w, hw, h⟩ := Result.bind_eq_next.mp h
  obtain ⟨d, hd, h⟩ := Result.bind_eq_next.mp h
  exact ⟨v, w, d, hv, hw, hd, h⟩

theorem execCmp_cases {a b : Token} {s t : State} (h : execCmp a b s = .next t) :
    ∃ v w, resolve s a = .next v ∧ resolve s b = .next w ∧ t = s.setFlags (cmpFlags s.flags v w) := by
  obtain ⟨v, hv, h⟩ := Result.bind_eq_next.mp h
  obtain ⟨w, hw, h⟩ := Result.bind_eq_next.mp h
  cases h
  exact ⟨v, w, hv, hw, rfl⟩

theorem execJmp_cases {a : Token} {s t : State} (h : execJmp a s = .next t) :
    ∃ v, resolve s a = .next v ∧ t = s.jumpTo v := by
  obtain ⟨v, hv, h⟩ := Result.bind_eq_next.mp h
  cases h
  exact ⟨v, hv, rfl⟩

theorem execJe_cases {a : Token} {s t : State} (h : execJe a s = .next t) :
    ∃ v, resolve s a = .next v ∧ (s.flags.zf = true ∧ t = s.jumpTo v ∨ s.flags.zf = false ∧ t = s) := by
  obtain ⟨v, hv, h⟩ := Result.bind_eq_next.mp h
  cases h
  refine ⟨v, hv, ?_⟩
  cases s.flags.zf <;> simp

theorem execOther_cases {m : String} {s t : State} (h : execOther m s = .next t) :
    t = s.halt (.unsupported m) := by
  cases h; rfl

/-- What a handler can do to the state: one store with or without flags, flags alone, a jump, nothing, or the
unsupported halt. -/
theorem exec_cases {i : Instr} {s t : State} (h : exec i s = .next t) :
    (∃ f d v, writeDest d v (s.setFlags f) = .next t) ∨ (∃ f, t = s.setFlags f) ∨
    (∃ v, t = s.jumpTo v) ∨ t = s ∨ (∃ m, i = .other m ∧ t = s.halt (.unsupported m)) := by
  cases i with
  | mov a b => obtain ⟨v, d, -, -, h⟩ := execMov_cases h; exact .inl ⟨s.flags, d, v, h⟩
  | add a b => obtain ⟨_, _, d, -, -, -, h⟩ := execAdd_cases h; exact .inl ⟨_, d, _, h⟩
  | sub a b => obtain ⟨_, _, d, -, -, -, h⟩ := execSub_cases h; exact .inl ⟨_, d, _, h⟩
  | cmp a b => obtain ⟨_, _, -, -, h⟩ := execCmp_cases h; exact .inr (.inl ⟨_, h⟩)
  | jmp a => obtain ⟨v, -, h⟩ := execJmp_cases h; exact .inr (.inr (.inl ⟨v, h⟩))
  | je a =>
    obtain ⟨v, -, ⟨-, h⟩ | ⟨-, h⟩⟩ := execJe_cases h
    · exact .inr (.inr (.inl ⟨v, h⟩))
    · exact .inr (.inr (.inr (.inl h)))
  | other m => exact .inr (.inr (.inr (.inr ⟨m, rfl, execOther_cases h⟩)))

/-- The record at `ip`, where there is one (40_sequencer.md R101). -/
theorem State.fetch_eq_some {s : State} {r : Record} :
    s.fetch = some r ↔ 0 ≤ s.ip ∧ s.program[s.ip.toNat]? = some r := by
  unfold State.fetch
  split
  · simp; omega
  · simp; omega

/-- Nothing is fetched exactly where `ip` is out of bounds (40_sequencer.md R101). -/
theorem State.fetch_eq_none {s : State} : s.fetch = none ↔ ¬ s.ipInBounds := by
  unfold State.fetch State.ipInBounds
  split
  · simp; omega
  · rw [List.getElem?_eq_none_iff]; omega

theorem State.mem_of_fetch {s : State} {r : Record} (h : s.fetch = some r) : r ∈ s.program :=
  List.mem_of_getElem? (State.fetch_eq_some.mp h).2

/-- What a step can do (R106): stay halted, halt at the end of the program, or run one decoded record. -/
theorem step_cases {s t : State} (h : step s = .next t) :
    (∃ c, s.status = .halted c ∧ t = s) ∨
    (s.status = .running ∧ Program.WellFormed s.memSize s.program ∧
      (s.fetch = none ∧ t = s.halt .endOfProgram ∨
       ∃ r i u, s.fetch = some r ∧ decode r = .ok i ∧ exec i s.beginInstr = .next u ∧ t = u.finish)) := by
  unfold step at h
  split at h
  · unfold stepRunning at h
    split at h
    · cases h
    · split at h
      · cases h; exact .inr ⟨‹_›, ‹_›, .inl ⟨‹_›, rfl⟩⟩
      · unfold stepRecord at h
        split at h
        · obtain ⟨u, hu, h⟩ := Result.bind_eq_next.mp h
          cases h
          exact .inr ⟨‹_›, ‹_›, .inr ⟨_, _, u, ‹_›, ‹_›, hu, rfl⟩⟩
        · cases h
  · cases h; exact .inl ⟨_, ‹_›, rfl⟩

theorem step_halted {s : State} {c : HaltCause} (h : s.status = .halted c) : step s = .next s := by
  simp [step, h, State.haltedStep]

theorem step_refused {s : State} {k : Nat} {c : Check} (h : s.status = .running)
    (hp : Program.defect s.memSize s.program = some (k, c)) :
    step s = .refused (.illFormedProgram k c) := by
  simp [step, stepRunning, h, hp]

theorem step_end {s : State} (h : s.status = .running) (hp : Program.WellFormed s.memSize s.program)
    (hf : s.fetch = none) : step s = .next (s.halt .endOfProgram) := by
  have : Program.defect s.memSize s.program = none := hp
  simp [step, stepRunning, h, this, hf]

theorem step_running {s : State} {r : Record} (h : s.status = .running)
    (hp : Program.WellFormed s.memSize s.program) (hf : s.fetch = some r) : step s = stepRecord s r := by
  have : Program.defect s.memSize s.program = none := hp
  simp [step, stepRunning, h, this, hf]

end Sys2Proof.Machine
end

