-- ==== Sys2Proof/Laws/Memory.lean ====
section
/-! SUPPORT. The memory: a read after a write, and that a write keeps the canonical form (20_memory.md R53, R58). -/

namespace Sys2Proof.Machine

theorem Memory.wf_cons {a : Nat} {b : Byte} {m : Memory} :
    Memory.wf ((a, b) :: m) = true ↔
      b ≠ Memory.blank ∧ (∀ c ∈ m, a < c.1) ∧ Memory.wf m = true := by
  simp [Memory.wf, and_assoc]

/-- Below every listed address a memory reads blank. -/
theorem Memory.read_below {m : Memory} {j : Nat} (h : ∀ c ∈ m, j < c.1) :
    Memory.read m j = Memory.blank := by
  induction m with
  | nil => rfl
  | cons c m ih =>
    have hc := h c (by simp)
    rw [Memory.read, if_neg (by omega)]
    exact ih fun d hd => h d (by simp [hd])

theorem Memory.read_consCell_other {m : Memory} {j k : Nat} {v : Byte} (h : j ≠ k) :
    Memory.read (Memory.consCell j v m) k = Memory.read m k := by
  unfold Memory.consCell
  split <;> simp [Memory.read, h]

theorem Memory.read_consCell_same {m : Memory} {j : Nat} {v : Byte} (h : ∀ c ∈ m, j < c.1) :
    Memory.read (Memory.consCell j v m) j = v := by
  unfold Memory.consCell
  split
  · rw [Memory.read_below h]; exact Eq.symm ‹_›
  · simp [Memory.read]

/-- A write leaves every other address alone; no form is asked of the memory. -/
theorem Memory.read_write_other {m : Memory} {j k : Nat} {v : Byte} (h : j ≠ k) :
    Memory.read (Memory.write m j v) k = Memory.read m k := by
  induction m with
  | nil => simp [Memory.write, Memory.read_consCell_other h]
  | cons c m ih =>
    obtain ⟨a, b⟩ := c
    rw [Memory.write]
    split
    · exact Memory.read_consCell_other h
    · split
      · rw [Memory.read_consCell_other h, Memory.read, if_neg (by omega)]
      · simp [Memory.read, ih]

/-- A read after a write to the same address gives the value written. -/
theorem Memory.read_write_same {m : Memory} {j : Nat} {v : Byte} (hm : Memory.wf m = true) :
    Memory.read (Memory.write m j v) j = v := by
  induction m with
  | nil => exact Memory.read_consCell_same (by simp)
  | cons c m ih =>
    obtain ⟨a, b⟩ := c
    obtain ⟨_, hlt, hw⟩ := Memory.wf_cons.mp hm
    rw [Memory.write]
    split
    · refine Memory.read_consCell_same fun d hd => ?_
      rcases List.mem_cons.mp hd with rfl | hd
      · assumption
      · have := hlt d hd; omega
    · split
      · rename_i hja; subst hja; exact Memory.read_consCell_same hlt
      · rename_i h1 h2
        rw [Memory.read, if_neg (by omega)]
        exact ih hw

theorem Memory.wf_consCell {m : Memory} {j : Nat} {v : Byte} (hlt : ∀ c ∈ m, j < c.1)
    (hm : Memory.wf m = true) : Memory.wf (Memory.consCell j v m) = true := by
  unfold Memory.consCell
  split
  · exact hm
  · exact Memory.wf_cons.mpr ⟨‹_›, hlt, hm⟩

/-- What a write lists: the address written, or an address listed before. -/
theorem Memory.mem_write {m : Memory} {j : Nat} {v : Byte} {c : Host.Cell}
    (h : c ∈ Memory.write m j v) : c.1 = j ∨ c ∈ m := by
  induction m with
  | nil =>
    simp only [Memory.write, Memory.consCell] at h
    split at h <;> simp_all
  | cons d m ih =>
    obtain ⟨a, b⟩ := d
    simp only [Memory.write, Memory.consCell] at h
    split at h
    · split at h
      · exact .inr h
      · rcases List.mem_cons.mp h with rfl | h
        · exact .inl rfl
        · exact .inr h
    · split at h
      · split at h
        · exact .inr (by simp [h])
        · rcases List.mem_cons.mp h with rfl | h
          · exact .inl rfl
          · exact .inr (by simp [h])
      · rcases List.mem_cons.mp h with rfl | h
        · exact .inr (by simp)
        · exact (ih h).imp id fun h => by simp [h]

/-- A write keeps the canonical form. -/
theorem Memory.wf_write {m : Memory} {j : Nat} {v : Byte} (hm : Memory.wf m = true) :
    Memory.wf (Memory.write m j v) = true := by
  induction m with
  | nil => exact Memory.wf_consCell (by simp) hm
  | cons c m ih =>
    obtain ⟨a, b⟩ := c
    obtain ⟨hb, hlt, hw⟩ := Memory.wf_cons.mp hm
    rw [Memory.write]
    split
    · refine Memory.wf_consCell (fun d hd => ?_) hm
      rcases List.mem_cons.mp hd with rfl | hd
      · assumption
      · have := hlt d hd; omega
    · split
      · rename_i hja; subst hja; exact Memory.wf_consCell hlt hw
      · refine Memory.wf_cons.mpr ⟨hb, fun d hd => ?_, ih hw⟩
        rcases Memory.mem_write hd with h | h
        · omega
        · exact hlt d h

/-- A write inside the memory lists no cell outside it. -/
theorem Memory.within_write {size : Nat} {m : Memory} {j : Nat} {v : Byte} (hj : j < size)
    (hm : Memory.within size m = true) : Memory.within size (Memory.write m j v) = true := by
  simp only [Memory.within, List.all_eq_true, decide_eq_true_eq] at hm ⊢
  intro c hc
  rcases Memory.mem_write hc with h | h
  · omega
  · exact hm c h

/-- Canonical: two memories in this form that read the same everywhere are the same list. -/
theorem Memory.ext_of_wf {m n : Memory} (hm : Memory.wf m = true) (hn : Memory.wf n = true)
    (h : ∀ j, Memory.read m j = Memory.read n j) : m = n := by
  induction m generalizing n with
  | nil =>
    cases n with
    | nil => rfl
    | cons c n =>
      obtain ⟨a, b⟩ := c
      have := h a
      simp [Memory.read] at this
      exact absurd this.symm (Memory.wf_cons.mp hn).1
  | cons c m ih =>
    obtain ⟨a, b⟩ := c
    obtain ⟨hb, hlt, hw⟩ := Memory.wf_cons.mp hm
    cases n with
    | nil =>
      have := h a
      simp [Memory.read] at this
      exact absurd this hb
    | cons d n =>
      obtain ⟨a', b'⟩ := d
      obtain ⟨hb', hlt', hw'⟩ := Memory.wf_cons.mp hn
      have haa : a = a' := by
        rcases Nat.lt_trichotomy a a' with hl | he | hl
        · have := h a
          rw [Memory.read_below (m := (a', b') :: n)] at this
          · simp [Memory.read] at this; exact absurd this hb
          · intro e he
            rcases List.mem_cons.mp he with rfl | he
            · exact hl
            · exact Nat.lt_trans hl (hlt' e he)
        · exact he
        · have := h a'
          rw [Memory.read_below (m := (a, b) :: m)] at this
          · simp [Memory.read] at this; exact absurd this.symm hb'
          · intro e he
            rcases List.mem_cons.mp he with rfl | he
            · exact hl
            · exact Nat.lt_trans hl (hlt e he)
      subst haa
      have hbb : b = b' := by simpa [Memory.read] using h a
      subst hbb
      have : m = n := ih hw hw' fun j => by
        by_cases hj : a = j
        · subst hj; rw [Memory.read_below hlt, Memory.read_below hlt']
        · simpa [Memory.read, hj] using h j
      rw [this]

end Sys2Proof.Machine
end

