-- ==== Sys2Proof/Laws/PerInstr.lean ====
section
/-! SUPPORT. Facts about every instruction as the opcode table gives it, one lemma per constructor. -/

namespace Sys2Proof.Laws

/-- The record of an instruction has the size tag in front of exactly the instruction's operands (R73, R82), and
its operand with a destination role is the second one. -/
def RecordShape.Statement (i : Instr) : Prop :=
  ∀ opcode tag, (encode opcode tag i).ops = tag :: i.operands ∧ (encode opcode tag i).opcode = opcode ∧
    (∀ t, i.destToken = some t → i.operands[1]? = some t)

theorem RecordShape.mov (op1 op2 : Token) : RecordShape.Statement (.mov op1 op2) :=
  fun _ _ => ⟨rfl, rfl, by simp [Instr.destToken, Instr.operands]⟩

theorem RecordShape.add (op1 op2 : Token) : RecordShape.Statement (.add op1 op2) :=
  fun _ _ => ⟨rfl, rfl, by simp [Instr.destToken, Instr.operands]⟩

theorem RecordShape.sub (op1 op2 : Token) : RecordShape.Statement (.sub op1 op2) :=
  fun _ _ => ⟨rfl, rfl, by simp [Instr.destToken, Instr.operands]⟩

theorem RecordShape.cmp (op1 op2 : Token) : RecordShape.Statement (.cmp op1 op2) :=
  fun _ _ => ⟨rfl, rfl, by simp [Instr.destToken]⟩

theorem RecordShape.jmp (op1 : Token) : RecordShape.Statement (.jmp op1) :=
  fun _ _ => ⟨rfl, rfl, by simp [Instr.destToken]⟩

theorem RecordShape.je (op1 : Token) : RecordShape.Statement (.je op1) :=
  fun _ _ => ⟨rfl, rfl, by simp [Instr.destToken]⟩

theorem RecordShape.other (mnem : String) : RecordShape.Statement (.other mnem) :=
  fun _ _ => ⟨rfl, rfl, by simp [Instr.destToken]⟩

end Sys2Proof.Laws
end

