-- ==== Sys2Proof/Tests/Slice0.lean ====
section
/-! SUPPORT. The model's own tests. Every expected value is copied from 95_test_vectors.md (the vector is named) or from a worked example of a rule; none was read off the model. Below them, one witness per statement with hypotheses. -/

namespace Sys2Proof.Tests

open Sys2Proof.Machine

/-! ## Decoding, one record per constructor, written out from 30_encoding.md R70, R82 and R90 -/

theorem test_decode_mov :
    decode { opcode := 0x89, ops := [.text "32", .num 10, .reg 1], mnem := "mov" } = .ok (.mov (.num 10) (.reg 1)) := by
  decide

theorem test_decode_add :
    decode { opcode := 0x01, ops := [.text "32", .reg 1, .reg 0], mnem := "add" } = .ok (.add (.reg 1) (.reg 0)) := by
  decide

theorem test_decode_sub :
    decode { opcode := 0x29, ops := [.text "32", .num 1, .num 12], mnem := "sub" } = .ok (.sub (.num 1) (.num 12)) := by
  decide

theorem test_decode_cmp :
    decode { opcode := 0x39, ops := [.text "32", .reg 0, .hex "FFFFFFFC"], mnem := "cmp" } =
      .ok (.cmp (.reg 0) (.hex "FFFFFFFC")) := by
  decide

theorem test_decode_jmp :
    decode { opcode := 0xEB, ops := [.text "8", .reg 2], mnem := "jmp" } = .ok (.jmp (.reg 2)) := by
  decide

theorem test_decode_je :
    decode { opcode := 0x74, ops := [.text "8", .text "+5"], mnem := "je" } = .ok (.je (.text "+5")) := by
  decide

theorem test_decode_other :
    decode { opcode := 0, ops := [.text "32", .reg 9, .text "zz"], mnem := "push" } = .ok (.other "push") := by
  decide

/-- V-SEQ-3: the comparison is case-sensitive. -/
theorem test_decode_upper_case :
    decode { opcode := 0, ops := [.text "32", .num 1, .reg 0], mnem := "MOV" } = .ok (.other "MOV") := by
  decide

/-- A table word in the model's transport form (log 11): the characters j, e. -/
theorem test_table_word_je : decodeTableWord 16 0x656A = some (.je (.num 0)) := by decide

/-! ## Well-formedness (V-WF): an ill-formed term for each check, and the check that refuses it -/

theorem test_wf_tag : Record.failedCheck 256 { opcode := 0, ops := [], mnem := "mov" } = some .wfTag := by decide

theorem test_wf_arity_missing :
    Record.failedCheck 256 { opcode := 0, ops := [.text "32", .num 10], mnem := "mov" } = some .wfArity := by
  decide

theorem test_wf_arity_extra :
    Record.failedCheck 256 { opcode := 0, ops := [.text "8", .num 1, .num 2], mnem := "jmp" } = some .wfArity := by
  decide

theorem test_wf_reg : (Instr.mov (.num 10) (.reg 8)).failedCheck 256 = some .wfReg := by decide

theorem test_wf_token_text : (Instr.add (.text "12ab") (.reg 0)).failedCheck 256 = some .wfToken := by decide

theorem test_wf_token_hex : (Instr.cmp (.hex "") (.reg 0)).failedCheck 256 = some .wfToken := by decide

theorem test_wf_imm_high : (Instr.mov (.num 4294967296) (.reg 0)).failedCheck 256 = some .wfImm := by decide

theorem test_wf_imm_low : (Instr.mov (.num (-2147483649)) (.reg 0)).failedCheck 256 = some .wfImm := by decide

theorem test_wf_dest_high : (Instr.mov (.num 10) (.num 300)).failedCheck 256 = some .wfDest := by decide

theorem test_wf_dest_low : (Instr.mov (.num 10) (.num (-1))).failedCheck 256 = some .wfDest := by decide

/-- `other` stands for no record whose mnemonic is one of the six. -/
theorem test_wf_other : ¬ (Instr.other "mov").WellFormed 256 := by decide

/-- V-WF-10 to V-WF-13. -/
theorem test_wf_accepts :
    (Instr.cmp (.reg 0) (.num 5000)).failedCheck 256 = none ∧
    Record.failedCheck 256 { opcode := 0, ops := [.text "32", .reg 9, .text "zz"], mnem := "push" } = none ∧
    Record.failedCheck 256 { opcode := 0, ops := [.text "dword", .hex "1F", .num 263], mnem := "mov" } = none ∧
    (Instr.mov (.num 4294967295) (.reg 0)).failedCheck 256 = none ∧
    (Instr.mov (.num (-2147483648)) (.reg 0)).failedCheck 256 = none := by
  decide

/-! ## Literals (V-RES, 30_encoding.md R77, R78) -/

theorem test_literals :
    hexValue "1F" = some 31 ∧ hexValue "FFFFFFFC" = some 4294967292 ∧ hexValue "1f" = some 31 ∧ hexValue "" = none ∧
    decValue "-7" = some (-7) ∧ decValue "+50" = some 50 ∧ decValue "50" = some 50 ∧ decValue "-" = none := by
  decide

/-! ## One step of each instruction -/

/-- The state a result carries. -/
def stateOf (r : Host.Outcome State Fault Refusal) : Option State :=
  match r with
  | .next t => some t
  | .fault _ => none
  | .refused _ => none

/-- The reference profile with one register set, loaded with a program (95_test_vectors.md, conventions). -/
def seeded (i : Fin 8) (w : Word) (p : Program) : State :=
  { State.start 256 Init.reference p with regs := Init.reference.regs.set i w }

/-- A record as the vectors write it, size tag `Text("32")`. -/
def rec32 (mnem : String) (ops : List Token) : Record := { opcode := 0, ops := .text "32" :: ops, mnem := mnem }

/-- V-MOV-3. -/
theorem test_mov_negative :
    (stateOf (step (seeded 0 0 [rec32 "mov" [.num (-1), .reg 3]]))).map (fun t => (t.regs[3], t.ip)) =
      some (0xFFFFFFFF, 1) := by
  decide

/-- V-MOV-6. -/
theorem test_mov_last_cell :
    (stateOf (step (seeded 5 0x12345678 [rec32 "mov" [.reg 5, .num 263]]))).map (fun t => t.readMem 255) =
      some (some 0x78) := by
  decide

/-- V-ADD-2: the carry comes from the exact sum, and so does the zero flag. -/
theorem test_add_wraps :
    (stateOf (step (seeded 0 0xFFFFFFFF [rec32 "add" [.num 1, .reg 0]]))).map
      (fun t => (t.regs[0], t.flags.zf, t.flags.cf, t.flags.nf, t.ip)) = some (0, false, true, false, 1) := by
  decide

/-- V-ADD-10: a literal second operand is the addend itself, and the cell keeps the low 8 bits. -/
theorem test_add_cell :
    (stateOf (step (seeded 0 0 [rec32 "add" [.num 250, .num 10]]))).map
      (fun t => (t.mem, t.flags.cf)) = some ([(2, 4)], false) := by
  decide

/-- V-SUB-1: op1 - op2. -/
theorem test_sub_order :
    (stateOf (step (seeded 0 3 [rec32 "sub" [.num 10, .reg 0]]))).map
      (fun t => (t.regs[0], t.flags.zf, t.flags.cf, t.flags.nf)) = some (7, false, false, false) := by
  decide

/-- V-SUB-5: the carry compares exact integers. -/
theorem test_sub_carry :
    (stateOf (step (seeded 0 0xFFFFFFFF [rec32 "sub" [.num 0, .reg 0]]))).map
      (fun t => (t.regs[0], t.flags.zf, t.flags.cf, t.flags.nf)) = some (1, false, true, true) := by
  decide

/-- V-CMP-7, with the overflow flag set before. -/
theorem test_cmp_exact :
    (stateOf (step ((seeded 0 0xFFFFFFFF [rec32 "cmp" [.num (-1), .reg 0]]).setFlags
      { zf := false, cf := false, of := true, nf := false }))).map (fun t => (t.flags, t.regs[0], t.ip)) =
      some ({ zf := false, cf := true, of := true, nf := true }, 0xFFFFFFFF, 1) := by
  decide

/-- V-CMP-2. -/
theorem test_cmp_below :
    (stateOf (step (seeded 0 40 [rec32 "cmp" [.reg 0, .num 50]]))).map (fun t => t.flags) =
      some { zf := false, cf := true, of := false, nf := true } := by
  decide

/-- V-JMP-3. -/
theorem test_jmp_indirect :
    (stateOf (step (seeded 2 7 [rec32 "jmp" [.reg 2]]))).map (fun t => (t.ip, t.jumped)) = some (7, false) := by
  decide

/-- V-JMP-2 (at index 0): a jump to its own index does not advance. -/
theorem test_jmp_self :
    (stateOf (step (seeded 0 0 [rec32 "jmp" [.num 0]]))).map (fun t => t.ip) = some 0 := by
  decide

/-- V-JE-4 (at index 0). -/
theorem test_je_taken :
    (stateOf (step ((seeded 1 2 [rec32 "je" [.reg 1]]).setFlags
      { zf := true, cf := false, of := false, nf := false }))).map (fun t => t.ip) = some 2 := by
  decide

/-- V-JE-2 (at index 0). -/
theorem test_je_not_taken :
    (stateOf (step (seeded 0 0 [rec32 "je" [.num 5]]))).map (fun t => t.ip) = some 1 := by
  decide

/-- V-SEQ-2 (at index 0). -/
theorem test_unsupported :
    (stateOf (step (seeded 0 0 [rec32 "nop" []]))).map (fun t => (t.status, t.ip)) =
      some (.halted (.unsupported "nop"), 0) := by
  decide

/-- V-SEQ-1. -/
theorem test_empty_program :
    (stateOf (step State.reset)) = some { State.reset with status := .halted .endOfProgram } := by
  decide

/-! ## Witnesses: for each statement with hypotheses, a state and operands that meet all of them, and for a
statement with several clauses each clause, at the ends of its range -/

/-- One record of each mnemonic; `ip` 2 compares, 3 jumps on equality, 4 jumps to itself. -/
def program : Program :=
  [rec32 "mov" [.num 10, .reg 7], rec32 "add" [.reg 1, .reg 0], rec32 "cmp" [.reg 0, .num 50],
   rec32 "je" [.num 7], rec32 "jmp" [.num 4], rec32 "sub" [.num 1, .num 8],
   rec32 "mov" [.num 300, .num 263], rec32 "push" [.reg 0]]

/-- The program at index `ip`, with `x[0] = 50`, `x[1] = 7`, a listed cell and every flag set. -/
def at_ (ip : Int) : State :=
  { State.start 256 { regs := #v[50, 7, 0, 0, 0, 0, 0, 0], mem := [(1, 200)],
                      flags := { zf := true, cf := true, of := true, nf := true } } program with ip := ip }

theorem witness_program_wellFormed : Program.WellFormed (at_ 0).memSize (at_ 0).program := by decide

/-- StepRunsDecodedInstruction and every StepsTo clause: running, latch clear, well-formed, and at each index the
record of its mnemonic. -/
theorem witness_records :
    (at_ 0).status = .running ∧ (at_ 0).jumped = false ∧
    decode (rec32 "mov" [.num 10, .reg 7]) = .ok (.mov (.num 10) (.reg 7)) ∧
    program[0]? = some (rec32 "mov" [.num 10, .reg 7]) ∧ program[1]? = some (rec32 "add" [.reg 1, .reg 0]) ∧
    program[2]? = some (rec32 "cmp" [.reg 0, .num 50]) ∧ program[3]? = some (rec32 "je" [.num 7]) ∧
    program[4]? = some (rec32 "jmp" [.num 4]) ∧ program[5]? = some (rec32 "sub" [.num 1, .num 8]) ∧
    program[7]? = some (rec32 "push" [.reg 0]) := by
  decide

/-- WholeStep and OutOfBoundsEndsNormally: both ends of the range of `ip`. -/
theorem witness_out_of_bounds :
    (at_ (-1)).ip < 0 ∧ ((at_ 8).program.length : Int) ≤ (at_ 8).ip ∧ (at_ 7).ip < (at_ 7).program.length := by
  decide

/-- WholeStep and UnsupportedHalts: a record with an unrecognised mnemonic at `ip`. -/
theorem witness_unsupported :
    "push" ∉ ["mov", "add", "sub", "cmp", "jmp", "je"] ∧ 0 ≤ (at_ 7).ip ∧
    ((at_ 7).halt .endOfProgram).status = .halted .endOfProgram := by
  decide

/-- DecodeOfEncode: a well-formed instruction of each kind of operand, and the fallback. -/
theorem witness_wellFormed_instr :
    (Instr.add (.text "-7") (.num 263)).WellFormed 256 ∧ (Instr.mov (.hex "1F") (.reg 7)).WellFormed 256 ∧
    (Instr.other "push").WellFormed 256 := by
  decide

/-- EncodeOfDecode: a record of each side. -/
theorem witness_decode_sides :
    decode (rec32 "je" [.num 7]) = .ok (.je (.num 7)) ∧ "je" ∈ ["mov", "add", "sub", "cmp", "jmp", "je"] ∧
    decode (rec32 "push" [.reg 0]) = .ok (.other "push") := by
  decide

/-- ResolveByTokenShape and DestIndexByTokenShape: literals with a value. -/
theorem witness_literals : hexValue "0" = some 0 ∧ decValue "-2147483648" = some (-2147483648) := by decide

/-- ResolveByTokenShape: a register that resolves. -/
theorem witness_resolve_reg : resolve (at_ 0) (.reg 7) = .next 0 := rfl

/-- ResolutionReadsOneRegister: two different states that agree on the register. -/
theorem witness_agree_on_register : (at_ 0).regs[(0 : Fin 8)] = (at_ 3).regs[(0 : Fin 8)] ∧ at_ 0 ≠ at_ 3 := by
  decide

/-- ExactResultsStayInRange, at both ends of the literal range. -/
theorem witness_exact_range :
    (Instr.add (.num (-2147483648)) (.reg 0)).failedCheck 256 = none ∧
    (Instr.sub (.num 4294967295) (.num 8)).failedCheck 256 = none ∧
    (Instr.cmp (.num (-2147483648)) (.num 4294967295)).failedCheck 256 = none := by
  decide

/-- StorePrimitive: the last cell, a canonical memory, and the indices just outside the space. -/
theorem witness_store :
    255 < (at_ 0).memSize ∧ Memory.wf (at_ 0).mem = true ∧ (-1 : Int) < 0 ∧ 8 + ((at_ 0).memSize : Int) ≤ 264 := by
  decide

/-- StoreTwiceIsStoreOnce: the last register and the last cell. -/
theorem witness_store_twice :
    (∃ t, writeDest 7 300 (at_ 0) = .next t) ∧ (∃ t, writeDest 263 300 (at_ 0) = .next t) :=
  ⟨⟨_, rfl⟩, ⟨_, rfl⟩⟩

/-- MovResult, AddResult, SubResult, RegistersReadBackLastWrite: operands that resolve, a destination register at
either end and a cell at either end. -/
theorem witness_store_operands :
    resolve (at_ 0) (.reg 1) = .next 7 ∧ resolve (at_ 0) (.num 263) = .next 263 ∧
    destIndex (.reg 0) = .next 0 ∧ destIndex (.reg 7) = .next 7 ∧
    destIndex (.num 8) = .next (8 + (0 : Nat)) ∧ destIndex (.num 263) = .next (8 + (255 : Nat)) :=
  ⟨rfl, rfl, rfl, rfl, rfl, rfl⟩

/-- CmpResult, CmpThenJe: operands that resolve, the cmp at `ip` 2 and the je after it. -/
theorem witness_cmp_je :
    resolve (at_ 2) (.reg 0) = .next 50 ∧ resolve (at_ 2) (.num 50) = .next 50 ∧ resolve (at_ 2) (.num 7) = .next 7 ∧
    decode (rec32 "cmp" [.reg 0, .num 50]) = .ok (.cmp (.reg 0) (.num 50)) :=
  ⟨rfl, rfl, rfl, by decide⟩

/-- JmpResult, JeResult: a target that resolves, inside the program and just outside it at either end, and either
value of the zero flag. -/
theorem witness_targets :
    resolve (at_ 4) (.num 4) = .next 4 ∧ resolve (at_ 4) (.num (-1)) = .next (-1) ∧
    resolve (at_ 4) (.num 8) = .next 8 ∧ ((at_ 4).program.length : Int) = 8 ∧ (at_ 4).flags.zf = true ∧
    ((at_ 4).setFlags { zf := false, cf := true, of := true, nf := true }).flags.zf = false :=
  ⟨rfl, rfl, rfl, rfl, rfl, rfl⟩

/-- SelfJumpNeverEnds: the jmp at `ip` 4 to itself. -/
theorem witness_self_jump :
    decode (rec32 "jmp" [.num 4]) = .ok (.jmp (.num 4)) ∧ resolve (at_ 4) (.num 4) = .next (at_ 4).ip :=
  ⟨by decide, rfl⟩

/-- SelfJumpNeverEnds: a je to itself with the zero flag set (V-JE-3, at index 0). -/
def selfJe : State :=
  (seeded 0 0 [rec32 "je" [.num 0]]).setFlags { zf := true, cf := false, of := false, nf := false }

theorem witness_self_je :
    selfJe.status = .running ∧ selfJe.jumped = false ∧ Program.WellFormed selfJe.memSize selfJe.program ∧
    0 ≤ selfJe.ip ∧ selfJe.program[selfJe.ip.toNat]? = some (rec32 "je" [.num 0]) ∧
    decode (rec32 "je" [.num 0]) = .ok (.je (.num 0)) ∧ selfJe.flags.zf = true ∧
    resolve selfJe (.num 0) = .next selfJe.ip :=
  ⟨rfl, rfl, by decide, by decide, by decide, by decide, rfl, rfl⟩

/-- OverflowDependsOnSigns: different integers of the same signs, zero among them. -/
theorem witness_signs : (-1 : Int).sign = (-5 : Int).sign ∧ (1 : Int).sign = (9 : Int).sign ∧ (0 : Int).sign = (0 : Int).sign := by
  decide

/-- StoringFrame, FlagWriters, RegisterReadersAndWriters: each storing instruction answers a next state, and a
register changes. -/
theorem witness_storing :
    (∃ t, exec (.mov (.num 300) (.num 263)) (at_ 0) = .next t) ∧ (∃ t, exec (.add (.reg 1) (.reg 0)) (at_ 0) = .next t) ∧
    (∃ t, exec (.sub (.num 1) (.num 8)) (at_ 0) = .next t) ∧
    (∃ t, exec (.mov (.num 10) (.reg 7)) (at_ 0) = .next t ∧ t.regs[(7 : Fin 8)] ≠ (at_ 0).regs[(7 : Fin 8)]) :=
  ⟨⟨_, rfl⟩, ⟨_, rfl⟩, ⟨_, rfl⟩, ⟨_, rfl, by decide⟩⟩

/-- NonStoringFrame, FlagWriters, IpChangesOnlyByJumpOrAdvance, CarryOverflowNegativeHaveNoInfluence: each
instruction without a destination answers a next state, the je taken and not. -/
theorem witness_nonstoring :
    (Instr.cmp (.reg 0) (.num 50)).destToken = none ∧ (∃ t, exec (.cmp (.reg 0) (.num 50)) (at_ 2) = .next t) ∧
    (∃ t, exec (.jmp (.num 4)) (at_ 4) = .next t) ∧ (∃ t, exec (.je (.num 7)) (at_ 3) = .next t) ∧
    (∃ t, exec (.je (.num 7)) ((at_ 3).setFlags { zf := false, cf := true, of := true, nf := true }) = .next t) ∧
    (∃ t, exec (.other "push") (at_ 7) = .next t) :=
  ⟨rfl, ⟨_, rfl⟩, ⟨_, rfl⟩, ⟨_, rfl⟩, ⟨_, rfl⟩, ⟨_, rfl⟩⟩

/-- IpChangesOnlyByJumpOrAdvance, StepKeepsInvariant, StepKeepsStatusTruthful: steps that halt, advance and jump. -/
theorem witness_steps :
    (stateOf (step (at_ 8))).map (fun t => t.ip) = some 8 ∧ (stateOf (step (at_ 1))).map (fun t => t.ip) = some 2 ∧
    (stateOf (step (at_ 3))).map (fun t => t.ip) = some 7 ∧ (at_ 1).Inv ∧
    (stateOf (step (at_ 7))).map (fun t => t.verdict) = some (.fault "push") := by
  decide

/-- MovThenReadBack: the last cell, and a register below 256. -/
theorem witness_read_back : 255 < (at_ 0).memSize ∧ (at_ 0).regs[(0 : Fin 8)].toNat < 256 := by decide

/-- WellFormedInstructionCompletes, for every constructor. -/
theorem witness_completes :
    (Instr.mov (.num 300) (.num 263)).failedCheck 256 = none ∧ (Instr.add (.reg 1) (.reg 0)).failedCheck 256 = none ∧
    (Instr.sub (.num 1) (.num 8)).failedCheck 256 = none ∧ (Instr.cmp (.reg 0) (.num 50)).failedCheck 256 = none ∧
    (Instr.jmp (.num 4)).failedCheck 256 = none ∧ (Instr.je (.num 7)).failedCheck 256 = none ∧
    (Instr.other "push").failedCheck 256 = none := by
  decide

/-- NoFaultAndRefusalOnlyOfIllFormed: a running state whose program is not well-formed, the ill-formed record
second and never reached by `ip`. The well-formed and the halted clause are met by `witness_program_wellFormed` and
`witness_halted`. -/
theorem witness_refused :
    let s := seeded 0 0 [rec32 "mov" [.num 10, .reg 0], rec32 "mov" [.num 10, .reg 8]]
    s.status = .running ∧ ¬ Program.WellFormed s.memSize s.program ∧ step s = .refused (.illFormedProgram 1 .wfReg) :=
  ⟨rfl, by decide, rfl⟩

/-- HaltedStateIsFinal, NoFaultAndRefusalOnlyOfIllFormed. -/
theorem witness_halted : ((at_ 8).halt .endOfProgram).status = .halted .endOfProgram := rfl

/-- ProgramStoreNeverWritten, StepKeepsStatusTruthful: a run of one step from the start of a program. -/
theorem witness_run :
    (∃ t, Sys2Proof.core.run 1 (at_ 5) = .next t) ∧ (at_ 5).ip = (5 : Nat) ∧ (at_ 5).StatusInv :=
  ⟨⟨_, rfl⟩, rfl, trivial⟩

/-- MemoryHasNoInfluence, CarryOverflowNegativeHaveNoInfluence: different states that agree. -/
theorem witness_agree :
    (at_ 0).AgreeExceptMem { at_ 0 with mem := [] } ∧ at_ 0 ≠ { at_ 0 with mem := [] } ∧
    (at_ 0).AgreeExceptUnreadFlags ((at_ 0).setFlags { zf := true, cf := false, of := false, nf := false }) ∧
    at_ 0 ≠ (at_ 0).setFlags { zf := true, cf := false, of := false, nf := false } :=
  ⟨rfl, by decide, rfl, by decide⟩

/-- IgnoredFieldsHaveNoInfluence: different programs that agree (V-SEQ-5). -/
theorem witness_ignored :
    Program.AgreeExceptIgnored [{ opcode := 0, ops := [.text "32", .num 4], mnem := "jmp" }]
      [{ opcode := 0x89, ops := [.num 8, .num 4], mnem := "jmp" }] :=
  .cons ⟨rfl, rfl, rfl⟩ .nil

/-- StartMeetsInvariant: a canonical seed that lists the last cell. -/
theorem witness_seed : Memory.wf [(1, 200), (255, 1)] = true ∧ Memory.within 256 [(1, 200), (255, 1)] = true := by
  decide

/-- TableWordRunsAsDecoded: the word of a mov (log 11). -/
theorem witness_table_word :
    decodeTableWord 24 0x766F6D = some (.mov (.num 0) (.num 0)) ∧ (Instr.mov (.num 0) (.num 0)).failedCheck 256 = none := by
  decide

/-- TableWordRunsAsDecoded: the meaning answers a next state there. -/
theorem witness_table_word_runs :
    ∃ t, exec (.mov (.num 0) (.num 0)) { State.reset.withFetchWord 24 0x766F6D with jumped := false } = .next t :=
  ⟨_, rfl⟩

end Sys2Proof.Tests
end

section
/-! SUPPORT. What the store primitive, a handler and a step leave unchanged, which handlers take the flags before into account, and how a run is taken apart (20_memory.md R53; 10_state.md R27, R31; 40_sequencer.md R106). -/

namespace Sys2Proof.Machine

/-- The store primitive writes registers and memory only. -/
theorem writeDest_frame {d v : Int} {s t : State} (h : writeDest d v s = .next t) :
    t.flags = s.flags ∧ t.ip = s.ip ∧ t.status = s.status ∧ t.jumped = s.jumped ∧
      t.program = s.program ∧ t.memSize = s.memSize := by
  rcases writeDest_cases h with ⟨i, -, rfl⟩ | ⟨j, -, -, rfl⟩ <;> simp

/-- The store primitive changes no register but the one its index selects. -/
theorem writeDest_regs_other {d v : Int} {s t : State} {k : Fin 8} (h : writeDest d v s = .next t) (hk : d ≠ k) :
    t.regs[k] = s.regs[k] := by
  rcases writeDest_cases h with ⟨i, rfl, rfl⟩ | ⟨j, -, -, rfl⟩
  · have hik : (i : Nat) ≠ k := by omega
    simp [Vector.getElem_set_ne, hik]
  · rfl

/-- The instructions with a destination operand (R82). -/
theorem destToken_eq_some {i : Instr} {b : Token} :
    i.destToken = some b ↔ ∃ a, i = .mov a b ∨ i = .add a b ∨ i = .sub a b := by
  cases i <;> simp [Instr.destToken]

/-- A handler with a destination operand makes one store there, after writing flags or not. -/
theorem exec_storing {i : Instr} {b : Token} {s t : State} (hb : i.destToken = some b) (h : exec i s = .next t) :
    ∃ f d v, destIndex b = .next d ∧ writeDest d v (s.setFlags f) = .next t := by
  obtain ⟨a, rfl | rfl | rfl⟩ := destToken_eq_some.mp hb
  · obtain ⟨v, d, -, hd, hw⟩ := execMov_cases h
    exact ⟨s.flags, d, v, hd, hw⟩
  · obtain ⟨v, w, d, -, -, hd, hw⟩ := execAdd_cases h
    exact ⟨_, d, _, hd, hw⟩
  · obtain ⟨v, w, d, -, -, hd, hw⟩ := execSub_cases h
    exact ⟨_, d, _, hd, hw⟩

/-- A handler without a destination operand writes no register. -/
theorem exec_nonstoring_regs {i : Instr} {s t : State} (hn : i.destToken = none) (h : exec i s = .next t) :
    t.regs = s.regs := by
  cases i with
  | mov a b => cases hn
  | add a b => cases hn
  | sub a b => cases hn
  | cmp a b => obtain ⟨_, _, -, -, rfl⟩ := execCmp_cases h; rfl
  | jmp a => obtain ⟨_, -, rfl⟩ := execJmp_cases h; rfl
  | je a => obtain ⟨_, -, ⟨-, rfl⟩ | ⟨-, rfl⟩⟩ := execJe_cases h <;> rfl
  | other m => obtain rfl := execOther_cases h; rfl

/-- A handler takes a jump, which only `jmp` and `je` on a set zero flag do, or leaves `ip` and the latch alone. -/
theorem exec_jump_or_keep_ip {i : Instr} {s t : State} (h : exec i s = .next t) :
    (∃ a v, (i = .jmp a ∨ i = .je a ∧ s.flags.zf = true) ∧ resolve s a = .next v ∧ t = s.jumpTo v) ∨
      (t.ip = s.ip ∧ t.jumped = s.jumped) := by
  cases hd : i.destToken with
  | some b =>
    obtain ⟨_, _, _, -, hw⟩ := exec_storing hd h
    obtain ⟨-, hip, -, hj, -, -⟩ := writeDest_frame hw
    exact .inr ⟨hip, hj⟩
  | none =>
    cases i with
    | mov a b => cases hd
    | add a b => cases hd
    | sub a b => cases hd
    | cmp a b => obtain ⟨_, _, -, -, rfl⟩ := execCmp_cases h; exact .inr ⟨rfl, rfl⟩
    | jmp a =>
      obtain ⟨v, hv, ht⟩ := execJmp_cases h
      exact .inl ⟨a, v, .inl rfl, hv, ht⟩
    | je a =>
      obtain ⟨v, hv, ⟨hz, ht⟩ | ⟨-, rfl⟩⟩ := execJe_cases h
      · exact .inl ⟨a, v, .inr ⟨rfl, hz⟩, hv, ht⟩
      · exact .inr ⟨rfl, rfl⟩
    | other m => obtain rfl := execOther_cases h; exact .inr ⟨rfl, rfl⟩

/-- `add` and `sub` overwrite every flag before anything is stored, so the flags before play no part. -/
theorem exec_setFlags_of_add_or_sub {i : Instr} {a b : Token} (hi : i = .add a b ∨ i = .sub a b) (s : State)
    (f : Flags) : exec i (s.setFlags f) = exec i s := by
  have resolves : ∀ t, resolve (s.setFlags f) t = resolve s t := resolve_congr rfl
  obtain rfl | rfl := hi
  · simp only [exec, execAdd, resolves]
    rfl
  · simp only [exec, execSub, resolves]
    rfl

/-- `cmp` hands the overflow flag through and takes nothing else from the flags before. -/
theorem exec_cmp_setFlags {a b : Token} {s t : State} (h : exec (.cmp a b) s = .next t) (f : Flags) :
    exec (.cmp a b) (s.setFlags f) = .next (t.setFlags { t.flags with of := f.of }) := by
  obtain ⟨v, w, hv, hw, rfl⟩ := execCmp_cases h
  have resolves : ∀ t, resolve (s.setFlags f) t = resolve s t := resolve_congr rfl
  simp only [exec, execCmp, resolves, hv, hw, Result.bind_next]
  rfl

theorem exec_program {i : Instr} {s t : State} (h : exec i s = .next t) : t.program = s.program := by
  obtain ⟨f, d, v, hw⟩ | ⟨f, rfl⟩ | ⟨v, rfl⟩ | rfl | ⟨m, -, rfl⟩ := exec_cases h
  · obtain ⟨-, -, -, -, hp, -⟩ := writeDest_frame hw
    exact hp
  · rfl
  · rfl
  · rfl
  · rfl

theorem step_program {s t : State} (h : step s = .next t) : t.program = s.program := by
  obtain ⟨_, -, rfl⟩ | ⟨-, -, ⟨-, rfl⟩ | ⟨r, i, u, -, -, hu, rfl⟩⟩ := step_cases h
  · rfl
  · rfl
  · simpa using exec_program hu

/-- A step leaves `ip` where it halts or has halted, advances it by one, or takes the jump of the record at `ip`. -/
theorem step_ip {s t : State} (h : step s = .next t) :
    t.ip = s.ip ∧ (∃ c, t.status = .halted c) ∨ t.ip = s.ip + 1 ∨
    ∃ r a, 0 ≤ s.ip ∧ s.program[s.ip.toNat]? = some r ∧ resolve s a = .next t.ip ∧
      (decode r = .ok (.jmp a) ∨ decode r = .ok (.je a) ∧ s.flags.zf = true) := by
  obtain ⟨c, hc, rfl⟩ | ⟨hrun, -, ⟨-, rfl⟩ | ⟨r, i, u, hf, hdec, hu, rfl⟩⟩ := step_cases h
  · exact .inl ⟨rfl, c, hc⟩
  · exact .inl ⟨rfl, _, rfl⟩
  · obtain ⟨hip, hr⟩ := State.fetch_eq_some.mp hf
    obtain ⟨a, v, hi, hv, rfl⟩ | ⟨huip, huj⟩ := exec_jump_or_keep_ip hu
    · have ht : (s.beginInstr.jumpTo v).finish.ip = v := by
        rw [State.finish_of_running (by simpa using hrun), State.advance_ip]
        rfl
      refine .inr (.inr ⟨r, a, hip, hr, by rw [ht]; exact hv, ?_⟩)
      obtain rfl | ⟨rfl, hz⟩ := hi
      · exact .inl hdec
      · exact .inr ⟨hdec, hz⟩
    · cases hs : u.status with
      | running =>
        rw [State.finish_of_running hs, State.advance_ip, huj, huip]
        exact .inr (.inl rfl)
      | halted c =>
        rw [State.finish_of_halted hs]
        exact .inl ⟨huip, c, hs⟩

theorem run_succ (k : Nat) (s : State) :
    Sys2Proof.core.run (k + 1) s = Result.bind (step s) (Sys2Proof.core.run k) := by
  refine (Host.Core.run.eq_2 Sys2Proof.core s k).trans ?_
  change _ = Result.bind (Sys2Proof.core.step s) _
  cases Sys2Proof.core.step s <;> rfl

/-- What holds of a state and is kept by every step holds after any number of steps. -/
theorem run_invariant {P : State → Prop} (hstep : ∀ s t, P s → step s = .next t → P t) {k : Nat} {s t : State}
    (hs : P s) (h : Sys2Proof.core.run k s = .next t) : P t := by
  induction k generalizing s with
  | zero => cases h; exact hs
  | succ k ih =>
    obtain ⟨u, hu, h⟩ := Result.bind_eq_next.mp (run_succ k s ▸ h)
    exact ih (hstep s u hs hu) h

end Sys2Proof.Machine
end

section
/-! SUPPORT. Parts of the state that no handler, and no step, reads: a relation between states that differ in such a part only is kept by every handler and every run (30_encoding.md R79; 10_state.md R28, R31). -/

namespace Sys2Proof.Machine

theorem Result.Related.of_next {R : State → State → Prop} {t : State} {y : Result State}
    (h : Result.Related R (.next t) y) : ∃ u, y = .next u ∧ R t u := by
  cases y with
  | next u => exact ⟨u, rfl, h⟩
  | fault e => cases h
  | refused e => cases h

theorem Result.Related.bind {R Q : State → State → Prop} {x y : Result State} {f g : State → Result State}
    (h : Result.Related R x y) (hfg : ∀ s u, R s u → Result.Related Q (f s) (g u)) :
    Result.Related Q (Result.bind x f) (Result.bind y g) := by
  cases x with
  | next s =>
    obtain ⟨u, rfl, hsu⟩ := h.of_next
    exact hfg s u hsu
  | fault e => cases y with
    | next u => cases h
    | fault e' => exact h
    | refused e' => cases h
  | refused e => cases y with
    | next u => cases h
    | fault e' => cases h
    | refused e' => exact h

/-- Two computations that begin with the same value. -/
theorem Result.Related.bind_congr {α : Type} {R : State → State → Prop} {x y : Result α} {f g : α → Result State}
    (h : x = y) (hfg : ∀ a, Result.Related R (f a) (g a)) :
    Result.Related R (Result.bind x f) (Result.bind y g) := by
  subst h
  cases x with
  | next a => exact hfg a
  | fault e => rfl
  | refused e => rfl

/-- The states `R` relates have the same registers and memory size, and the updates the handlers make keep `R`. -/
structure KeptByUpdates (R : State → State → Prop) : Prop where
  regs : ∀ {s u}, R s u → s.regs = u.regs
  memSize : ∀ {s u}, R s u → s.memSize = u.memSize
  writeReg : ∀ {s u}, R s u → ∀ i w, R (s.writeReg i w) (u.writeReg i w)
  writeMem : ∀ {s u}, R s u → ∀ j v, R (s.writeMem j v) (u.writeMem j v)
  setFlags : ∀ {s u}, R s u → ∀ f, R (s.setFlags f) (u.setFlags f)
  setCmpFlags : ∀ {s u}, R s u → ∀ a b, R (s.setFlags (cmpFlags s.flags a b)) (u.setFlags (cmpFlags u.flags a b))
  jumpTo : ∀ {s u}, R s u → ∀ v, R (s.jumpTo v) (u.jumpTo v)
  halt : ∀ {s u}, R s u → ∀ c, R (s.halt c) (u.halt c)

/-- Beyond `KeptByUpdates`: the states `R` relates agree on all that a step reads around the handler, and on the
zero flag, and the phases of a step keep `R`. -/
structure KeptByPhases (R : State → State → Prop) : Prop extends KeptByUpdates R where
  zf : ∀ {s u}, R s u → s.flags.zf = u.flags.zf
  status : ∀ {s u}, R s u → s.status = u.status
  ip : ∀ {s u}, R s u → s.ip = u.ip
  program : ∀ {s u}, R s u → s.program = u.program
  beginInstr : ∀ {s u}, R s u → R s.beginInstr u.beginInstr
  finish : ∀ {s u}, R s u → R s.finish u.finish

theorem KeptByUpdates.writeDest {R : State → State → Prop} (hR : KeptByUpdates R) {s u : State} (h : R s u)
    (d v : Int) : Result.Related R (writeDest d v s) (writeDest d v u) := by
  unfold Machine.writeDest
  rw [hR.memSize h]
  split
  · exact hR.writeReg h _ _
  · split
    · exact hR.writeMem h _ _
    · rfl

/-- Every handler keeps such a relation; only `je` asks for the same zero flag. -/
theorem KeptByUpdates.exec {R : State → State → Prop} (hR : KeptByUpdates R) {s u : State} (h : R s u) {i : Instr}
    (hz : ∀ a, i = .je a → s.flags.zf = u.flags.zf) : Result.Related R (exec i s) (exec i u) := by
  have resolves : ∀ t, resolve s t = resolve u t := resolve_congr (hR.regs h)
  cases i with
  | mov a b =>
    exact .bind_congr (resolves a) fun v => .bind_congr rfl fun d => hR.writeDest h d v
  | add a b =>
    exact .bind_congr (resolves a) fun v => .bind_congr (resolves b) fun w => .bind_congr rfl fun d =>
      hR.writeDest (hR.setFlags h _) d (v + w)
  | sub a b =>
    exact .bind_congr (resolves a) fun v => .bind_congr (resolves b) fun w => .bind_congr rfl fun d =>
      hR.writeDest (hR.setFlags h _) d (v - w)
  | cmp a b =>
    exact .bind_congr (resolves a) fun v => .bind_congr (resolves b) fun w => hR.setCmpFlags h v w
  | jmp a => exact .bind_congr (resolves a) fun v => hR.jumpTo h v
  | je a =>
    refine .bind_congr (resolves a) fun v => ?_
    rw [hz a rfl]
    split
    · exact hR.jumpTo h v
    · exact h
  | other m => exact hR.halt h _

theorem KeptByPhases.step {R : State → State → Prop} (hR : KeptByPhases R) {s u : State} (h : R s u) :
    Result.Related R (step s) (step u) := by
  have hstatus := hR.status h
  cases hs : s.status with
  | halted c =>
    rw [step_halted hs, step_halted (hstatus ▸ hs)]
    exact h
  | running =>
    have hu : u.status = .running := hstatus ▸ hs
    have hdefect : Program.defect s.memSize s.program = Program.defect u.memSize u.program := by
      rw [hR.memSize h, hR.program h]
    have hfetch : s.fetch = u.fetch := by simp only [State.fetch, hR.ip h, hR.program h]
    cases hp : Program.defect s.memSize s.program with
    | some e =>
      rw [step_refused hs hp, step_refused hu (hdefect.symm.trans hp)]
      rfl
    | none =>
      cases hf : s.fetch with
      | none =>
        rw [step_end hs hp hf, step_end hu (hdefect.symm.trans hp) (hfetch ▸ hf)]
        exact hR.halt h _
      | some r =>
        rw [step_running hs hp hf, step_running hu (hdefect.symm.trans hp) (hfetch ▸ hf)]
        unfold stepRecord
        cases decode r with
        | ok i =>
          have hbegin := hR.beginInstr h
          exact (hR.toKeptByUpdates.exec hbegin fun _ _ => hR.zf hbegin).bind fun _ _ => hR.finish
        | error c => rw [hR.ip h]; rfl

theorem KeptByPhases.run {R : State → State → Prop} (hR : KeptByPhases R) (k : Nat) {s u : State} (h : R s u) :
    Result.Related R (Sys2Proof.core.run k s) (Sys2Proof.core.run k u) := by
  induction k generalizing s u with
  | zero => exact h
  | succ k ih =>
    rw [run_succ, run_succ]
    exact (hR.step h).bind fun _ _ => ih

/-! The parts in question: the flags as a whole, `ip`, and the three flags that no instruction reads. -/

/-- The states are equal but for the flags. -/
def State.AgreeExceptFlags (s u : State) : Prop := ∃ f, u = s.setFlags f

/-- The states are equal but for `ip`. -/
def State.AgreeExceptIp (s u : State) : Prop := ∃ k, u = { s with ip := k }

theorem State.advance_setFlags (s : State) (f : Flags) : (s.setFlags f).advance = s.advance.setFlags f := by
  unfold State.advance
  rw [State.setFlags_jumped]
  cases s.jumped <;> rfl

theorem State.finish_setFlags (s : State) (f : Flags) : (s.setFlags f).finish = s.finish.setFlags f := by
  unfold State.finish
  rw [State.setFlags_status]
  cases s.status with
  | running => exact State.advance_setFlags s f
  | halted c => rfl

theorem agreeExceptFlags_kept : KeptByUpdates State.AgreeExceptFlags where
  regs := by rintro s _ ⟨f, rfl⟩; rfl
  memSize := by rintro s _ ⟨f, rfl⟩; rfl
  writeReg := by rintro s _ ⟨f, rfl⟩ i w; exact ⟨f, rfl⟩
  writeMem := by rintro s _ ⟨f, rfl⟩ j v; exact ⟨f, rfl⟩
  setFlags := by rintro s _ ⟨f, rfl⟩ g; exact ⟨g, rfl⟩
  setCmpFlags := by rintro s _ ⟨f, rfl⟩ a b; exact ⟨cmpFlags f a b, rfl⟩
  jumpTo := by rintro s _ ⟨f, rfl⟩ v; exact ⟨f, rfl⟩
  halt := by rintro s _ ⟨f, rfl⟩ c; exact ⟨f, rfl⟩

theorem agreeExceptIp_kept : KeptByUpdates State.AgreeExceptIp where
  regs := by rintro s _ ⟨k, rfl⟩; rfl
  memSize := by rintro s _ ⟨k, rfl⟩; rfl
  writeReg := by rintro s _ ⟨k, rfl⟩ i w; exact ⟨k, rfl⟩
  writeMem := by rintro s _ ⟨k, rfl⟩ j v; exact ⟨k, rfl⟩
  setFlags := by rintro s _ ⟨k, rfl⟩ f; exact ⟨k, rfl⟩
  setCmpFlags := by rintro s _ ⟨k, rfl⟩ a b; exact ⟨k, rfl⟩
  jumpTo := by rintro s _ ⟨k, rfl⟩ v; exact ⟨v, rfl⟩
  halt := by rintro s _ ⟨k, rfl⟩ c; exact ⟨k, rfl⟩

theorem State.AgreeExceptUnreadFlags.exists {s u : State} (h : s.AgreeExceptUnreadFlags u) :
    ∃ f : Flags, f.zf = s.flags.zf ∧ u = s.setFlags f :=
  ⟨{ u.flags with zf := s.flags.zf }, rfl, h.symm⟩

theorem State.agreeExceptUnreadFlags_setFlags {s : State} {f : Flags} (h : f.zf = s.flags.zf) :
    s.AgreeExceptUnreadFlags (s.setFlags f) := by
  simp only [State.AgreeExceptUnreadFlags, ← h, State.setFlags_flags]
  rfl

theorem agreeExceptUnreadFlags_kept : KeptByPhases State.AgreeExceptUnreadFlags where
  regs h := by obtain ⟨f, -, rfl⟩ := h.exists; rfl
  memSize h := by obtain ⟨f, -, rfl⟩ := h.exists; rfl
  writeReg h i w := by obtain ⟨f, hf, rfl⟩ := h.exists; exact State.agreeExceptUnreadFlags_setFlags hf
  writeMem h j v := by obtain ⟨f, hf, rfl⟩ := h.exists; exact State.agreeExceptUnreadFlags_setFlags hf
  setFlags h g := by obtain ⟨f, -, rfl⟩ := h.exists; rfl
  setCmpFlags h a b := by obtain ⟨f, -, rfl⟩ := h.exists; rfl
  jumpTo h v := by obtain ⟨f, hf, rfl⟩ := h.exists; exact State.agreeExceptUnreadFlags_setFlags hf
  halt h c := by obtain ⟨f, hf, rfl⟩ := h.exists; exact State.agreeExceptUnreadFlags_setFlags hf
  zf h := by obtain ⟨f, hf, rfl⟩ := h.exists; exact hf.symm
  status h := by obtain ⟨f, -, rfl⟩ := h.exists; rfl
  ip h := by obtain ⟨f, -, rfl⟩ := h.exists; rfl
  program h := by obtain ⟨f, -, rfl⟩ := h.exists; rfl
  beginInstr h := by obtain ⟨f, hf, rfl⟩ := h.exists; exact State.agreeExceptUnreadFlags_setFlags hf
  finish {s u} h := by
    obtain ⟨f, hf, rfl⟩ := h.exists
    rw [State.finish_setFlags]
    exact State.agreeExceptUnreadFlags_setFlags (by rw [hf, State.finish_flags])

end Sys2Proof.Machine
end

section
/-! SUPPORT. The statements about the state's parts (10_state.md): who reads them and who writes them. -/

namespace Sys2Proof.Proofs

open Sys2Proof.Machine

/-- Settles O42: the agreement is kept by every handler and every phase of a step, so by every run; and without
`je` no handler asks for the same zero flag. -/
theorem carryOverflowNegativeHaveNoInfluence : Obligations.CarryOverflowNegativeHaveNoInfluence := by
  refine ⟨fun k s u h => agreeExceptUnreadFlags_kept.run k h, fun s t i f hje h => ?_⟩
  have hrel : Result.Related State.AgreeExceptFlags (exec i s) (exec i (s.setFlags f)) :=
    agreeExceptFlags_kept.exec ⟨f, rfl⟩ fun a hi => absurd hi (hje a)
  rw [h] at hrel
  obtain ⟨_, hu, g, rfl⟩ := hrel.of_next
  exact ⟨_, hu, rfl⟩

/-- Settles O27, one clause per kind of instruction. -/
theorem flagWriters : Obligations.FlagWriters := by
  intro s t i h
  refine ⟨?addSub, ?cmp, ?mov, ?jump, ?other⟩
  case addSub => exact fun a b hi f => (exec_setFlags_of_add_or_sub hi s f).trans h
  case cmp =>
    rintro a b rfl
    refine ⟨?_, exec_cmp_setFlags h⟩
    obtain ⟨_, _, -, -, rfl⟩ := execCmp_cases h
    rfl
  case mov =>
    rintro a b rfl
    obtain ⟨_, _, -, -, hw⟩ := execMov_cases h
    obtain ⟨hf, -⟩ := writeDest_frame hw
    exact hf
  case jump =>
    rintro a (rfl | rfl)
    · obtain ⟨_, -, rfl⟩ := execJmp_cases h
      rfl
    · obtain ⟨_, -, ⟨-, rfl⟩ | ⟨-, rfl⟩⟩ := execJe_cases h <;> rfl
  case other =>
    rintro m rfl
    obtain rfl := execOther_cases h
    rfl

/-- Settles O28: a handler without a destination writes no register, and one with a destination stores there
alone. -/
theorem registerReadersAndWriters : Obligations.RegisterReadersAndWriters := by
  refine ⟨fun s t i k h hk => ?_, resolve_reg⟩
  cases hd : i.destToken with
  | none => exact absurd (by rw [exec_nonstoring_regs hd h]) hk
  | some b =>
    obtain ⟨a, hi⟩ := destToken_eq_some.mp hd
    obtain ⟨f, d, v, hdest, hw⟩ := exec_storing hd h
    have hdk : d = k := by
      by_contra hne
      have hreg : t.regs[k] = (s.setFlags f).regs[k] := writeDest_regs_other hw hne
      exact hk hreg
    exact ⟨a, b, hi, hdk ▸ hdest⟩

/-- Settles O29: the inversion of a step and of a handler, and `ip` as a part no handler reads. -/
theorem ipChangesOnlyByJumpOrAdvance : Obligations.IpChangesOnlyByJumpOrAdvance := by
  refine ⟨fun s t => step_ip, fun s t i h => ?_, fun s t i k h => ?_⟩
  · obtain ⟨a, _, hi, -, -⟩ | ⟨hip, -⟩ := exec_jump_or_keep_ip h
    · exact .inr ⟨a, hi⟩
    · exact .inl hip
  · have hrel : Result.Related State.AgreeExceptIp (exec i s) (exec i { s with ip := k }) :=
      agreeExceptIp_kept.exec ⟨k, rfl⟩ fun _ _ => rfl
    rw [h] at hrel
    obtain ⟨_, hu, _, rfl⟩ := hrel.of_next
    exact ⟨_, hu, rfl⟩

/-- Settles O38: no step and no store writes the program, and a fetch reads it at `ip`. -/
theorem programStoreNeverWritten : Obligations.ProgramStoreNeverWritten := by
  refine ⟨fun k s t h => ?_, fun s t d v h => ?_, fun s k hk => by simp [State.fetch, hk]⟩
  · exact run_invariant (P := fun t => t.program = s.program) (fun _ _ hp hstep => (step_program hstep).trans hp)
      rfl h
  · obtain ⟨-, -, -, -, hp, -⟩ := writeDest_frame h
    exact hp

end Sys2Proof.Proofs
end

section
/-! SUPPORT. What the digit functions and the reader of a numeral compute, in terms of the library's positional value of a digit list (30_encoding.md R77, R78). -/

namespace Sys2Proof

/-- A character of a range, by its distance from the start of the range. -/
theorem char_eq_ofNat_of_range {lo hi c : Char} (h : lo ≤ c ∧ c ≤ hi) :
    ∃ k, k ≤ hi.toNat - lo.toNat ∧ c = Char.ofNat (lo.toNat + k) := by
  have hlo : lo.toNat ≤ c.toNat := h.1
  have hhi : c.toNat ≤ hi.toNat := h.2
  refine ⟨c.toNat - lo.toNat, by omega, ?_⟩
  rw [Nat.add_sub_cancel' hlo, Char.ofNat_toNat]

/-- The worth of a hexadecimal digit is its place among the sixteen digits, in either case. -/
theorem hexDigit_eq_some {c : Char} {d : Nat} :
    hexDigit c = some d ↔
      ['0', '1', '2', '3', '4', '5', '6', '7', '8', '9', 'a', 'b', 'c', 'd', 'e', 'f'][d]? = some c ∨
        ['0', '1', '2', '3', '4', '5', '6', '7', '8', '9', 'A', 'B', 'C', 'D', 'E', 'F'][d]? = some c := by
  constructor
  · intro h
    unfold hexDigit at h
    split_ifs at h with hdec hlower hupper <;> cases h
    · obtain ⟨k, hk : k ≤ 9, rfl⟩ := char_eq_ofNat_of_range hdec
      interval_cases k <;> decide
    · obtain ⟨k, hk : k ≤ 5, rfl⟩ := char_eq_ofNat_of_range hlower
      interval_cases k <;> decide
    · obtain ⟨k, hk : k ≤ 5, rfl⟩ := char_eq_ofNat_of_range hupper
      interval_cases k <;> decide
  · rintro (h | h)
    · obtain ⟨hd, rfl⟩ := List.getElem?_eq_some_iff.mp h
      clear h
      decide +revert
    · obtain ⟨hd, rfl⟩ := List.getElem?_eq_some_iff.mp h
      clear h
      decide +revert

/-- Digits read most significant first after digits worth `acc`: `acc` is one more digit in front of them. -/
theorem digitsValue_eq_some {base n : Nat} {digit : Char → Option Nat} {cs : List Char} {acc : Nat} :
    digitsValue base digit acc cs = some n ↔
      ∃ ds : List Nat, List.Forall₂ (fun c d => digit c = some d) cs ds ∧
        n = Nat.ofDigits base (ds.reverse ++ [acc]) := by
  induction cs generalizing acc with
  | nil => simp [digitsValue, eq_comm]
  | cons c cs ih =>
    cases hc : digit c with
    | none => simp [digitsValue, hc, List.forall₂_cons_left_iff]
    | some d =>
      have front (ds : List Nat) : Nat.ofDigits base (ds.reverse ++ [base * acc + d]) =
          Nat.ofDigits base ((d :: ds).reverse ++ [acc]) := by
        simp [Nat.ofDigits_append, Nat.ofDigits_cons, Nat.add_comm]
      simp only [digitsValue, hc, ih, front, List.forall₂_cons_left_iff, Option.some.injEq]
      constructor
      · rintro ⟨ds, hds, hn⟩
        exact ⟨d :: ds, ⟨d, ds, rfl, hds, rfl⟩, hn⟩
      · rintro ⟨_, ⟨_, ds, rfl, hds, rfl⟩, hn⟩
        exact ⟨ds, hds, hn⟩

/-- A numeral has a value just when it is a non-empty string of digits, and its value is theirs in the base. -/
theorem numeral_eq_some {base n : Nat} {digit : Char → Option Nat} {cs : List Char} :
    numeral base digit cs = some n ↔
      cs ≠ [] ∧ ∃ ds : List Nat, List.Forall₂ (fun c d => digit c = some d) cs ds ∧
        n = Nat.ofDigits base ds.reverse := by
  cases cs with
  | nil => simp [numeral]
  | cons c cs => simp [numeral, digitsValue_eq_some, Nat.ofDigits_append_zero]

end Sys2Proof
end

section
/-! SUPPORT. What a token's resolution depends on, and its sign for a register (30_encoding.md R76, R79). -/

namespace Sys2Proof.Machine

/-- A register reference resolves to a word's value, never to a negative integer (R76). -/
theorem resolve_reg_nonneg {s : State} {i : Nat} {v : Int} (h : resolve s (.reg i) = .next v) : 0 ≤ v := by
  obtain ⟨_, -, rfl⟩ | hlit := resolve_cases h
  · exact Int.natCast_nonneg _
  · cases hlit

/-- Resolution reads at most the register the token names (R79). -/
theorem resolve_congr_named {s u : State} {t : Token} (h : ∀ i : Fin 8, t = .reg i → s.regs[i] = u.regs[i]) :
    resolve s t = resolve u t := by
  cases t with
  | reg i =>
    by_cases hi : i < 8
    · have hreg : s.regs[i] = u.regs[i] := h ⟨i, hi⟩ rfl
      simp [resolve, State.readReg, hi, hreg]
    · simp [resolve, State.readReg, hi]
  | num v => rfl
  | hex w => rfl
  | text w => rfl

end Sys2Proof.Machine
end

section
/-! SUPPORT. The statements about the values of tokens (30_encoding.md R76, R77, R79). -/

namespace Sys2Proof.Proofs
open Sys2Proof.Machine

/-- Settles O8: the reader of numerals, with the worth of a hexadecimal digit as its place among the sixteen. -/
theorem hexValueIsBaseSixteen : Obligations.HexValueIsBaseSixteen := by
  refine ⟨fun cs n => ?_, by decide, by decide⟩
  simp only [hexValue, String.toList_ofList, numeral_eq_some, hexDigit_eq_some]

/-- Settles O7: a register through the reading rule of operands, each literal through its value. -/
theorem resolveByTokenShape : Obligations.ResolveByTokenShape := by
  refine fun s => ⟨fun v => resolve_of_literalValue rfl, resolve_reg s, fun h n hn => ?hex, fun w v hv => ?text,
    fun i v => resolve_reg_nonneg⟩
  case hex =>
    have hlit : literalValue (.hex h) = some (n : Int) := by simp [literalValue, hn]
    exact resolve_of_literalValue hlit
  case text =>
    have hlit : literalValue (.text w) = some v := hv
    exact resolve_of_literalValue hlit

/-- Settles O10: resolution reads at most the register the token names. -/
theorem resolutionReadsOneRegister : Obligations.ResolutionReadsOneRegister :=
  fun _ _ _ => resolve_congr_named

end Sys2Proof.Proofs
end

section
/-! SUPPORT. That a handler completes where the operand checks pass, which handlers halt, and the step of a fetched record as its handler's answer, finished (40_sequencer.md R102 to R106). -/

namespace Sys2Proof

/-- A recognised mnemonic decodes from a size tag and the operands it takes. -/
theorem decode_recognised {r : Record} {i : Instr} {m : Mnemonic} (hm : Mnemonic.ofText r.mnem = some m)
    (h : decode r = .ok i) : ∃ tag args, r.ops = tag :: args ∧ decodeOperands m args = .ok i := by
  obtain ⟨hnone, -⟩ | ⟨m', tag, args, hm', hops, hargs⟩ := decode_cases h
  · cases hm.symm.trans hnone
  · cases hm.symm.trans hm'
    exact ⟨tag, args, hops, hargs⟩

theorem decode_unrecognised {r : Record} (h : r.mnem ∉ recognisedMnemonics) : decode r = .ok (.other r.mnem) := by
  simp [decode, Mnemonic.ofText_eq_none.mpr h]

/-- The operand with a destination role is one of the operands (R82). -/
theorem Instr.mem_operands_of_destToken {i : Instr} {b : Token} (h : i.destToken = some b) : b ∈ i.operands := by
  obtain ⟨a, rfl | rfl | rfl⟩ := Machine.destToken_eq_some.mp h <;> simp [Instr.operands]

end Sys2Proof

namespace Sys2Proof.Machine

/-- A store to a token that passes WF-reg and WF-dest completes (20_memory.md R54). -/
theorem store_completes {s : State} {b : Token} (hr : regOk b = true) (hd : destOk s.memSize b = true) (v : Int) :
    ∃ t, ((destIndex b).bind fun d => writeDest d v s) = .next t := by
  obtain ⟨d, hdest, h0, h1⟩ := destIndex_of_ok hr hd
  obtain ⟨t, ht⟩ := writeDest_of_inSpace (v := v) h0 h1
  exact ⟨t, Result.bind_eq_next.mpr ⟨d, hdest, ht⟩⟩

/-- A handler completes where its operands pass the checks: every operand resolves and every store has a place
(R103). -/
theorem exec_completes {s : State} {i : Instr} (h : i.failedCheck s.memSize = none) : ∃ t, exec i s = .next t := by
  obtain ⟨hops, hdest⟩ := Instr.failedCheck_eq_none.mp h
  have resolves : ∀ a ∈ i.operands, ∃ v, resolve s a = .next v := fun a ha =>
    have ⟨htok, hreg, _⟩ := hops a ha
    resolve_of_ok s htok hreg
  have stores : ∀ b, i.destToken = some b → ∀ f v,
      ∃ t, ((destIndex b).bind fun d => writeDest d v (s.setFlags f)) = .next t := fun b hb f v =>
    have ⟨_, hreg, _⟩ := hops b (Instr.mem_operands_of_destToken hb)
    store_completes (s := s.setFlags f) hreg (hdest b hb) v
  cases i with
  | mov a b =>
    obtain ⟨v, hv⟩ := resolves a (by simp [Instr.operands])
    obtain ⟨t, ht⟩ := stores b rfl s.flags v
    exact ⟨t, Result.bind_eq_next.mpr ⟨v, hv, ht⟩⟩
  | add a b =>
    obtain ⟨v, hv⟩ := resolves a (by simp [Instr.operands])
    obtain ⟨w, hw⟩ := resolves b (by simp [Instr.operands])
    obtain ⟨t, ht⟩ := stores b rfl (addFlags v w) (v + w)
    exact ⟨t, Result.bind_eq_next.mpr ⟨v, hv, Result.bind_eq_next.mpr ⟨w, hw, ht⟩⟩⟩
  | sub a b =>
    obtain ⟨v, hv⟩ := resolves a (by simp [Instr.operands])
    obtain ⟨w, hw⟩ := resolves b (by simp [Instr.operands])
    obtain ⟨t, ht⟩ := stores b rfl (subFlags v w) (v - w)
    exact ⟨t, Result.bind_eq_next.mpr ⟨v, hv, Result.bind_eq_next.mpr ⟨w, hw, ht⟩⟩⟩
  | cmp a b =>
    obtain ⟨v, hv⟩ := resolves a (by simp [Instr.operands])
    obtain ⟨w, hw⟩ := resolves b (by simp [Instr.operands])
    exact ⟨_, Result.bind_eq_next.mpr ⟨v, hv, Result.bind_eq_next.mpr ⟨w, hw, rfl⟩⟩⟩
  | jmp a =>
    obtain ⟨v, hv⟩ := resolves a (by simp [Instr.operands])
    exact ⟨_, Result.bind_eq_next.mpr ⟨v, hv, rfl⟩⟩
  | je a =>
    obtain ⟨v, hv⟩ := resolves a (by simp [Instr.operands])
    exact ⟨_, Result.bind_eq_next.mpr ⟨v, hv, rfl⟩⟩
  | other m => exact ⟨_, rfl⟩

/-- No handler halts the run but the fallback (R102). -/
theorem exec_status {i : Instr} {s t : State} (hi : ∀ m, i ≠ .other m) (h : exec i s = .next t) :
    t.status = s.status := by
  obtain ⟨f, d, v, hw⟩ | ⟨f, rfl⟩ | ⟨v, rfl⟩ | rfl | ⟨m, rfl, -⟩ := exec_cases h
  · obtain ⟨-, -, hstatus, -, -, -⟩ := writeDest_frame hw
    exact hstatus
  · rfl
  · rfl
  · rfl
  · exact absurd rfl (hi m)

/-- The end of a running step moves `ip` on by one unless the latch is set, and writes nothing else but the latch
(R105). -/
theorem State.finish_up_to_latch {t : State} (h : t.status = .running) :
    { t.finish with jumped := false } = { t with jumped := false, ip := if t.jumped then t.ip else t.ip + 1 } := by
  rw [State.finish_of_running h, State.advance]
  cases t.jumped <;> rfl

/-- The step of a fetched record is its handler's answer, finished. -/
theorem step_of_exec {s t : State} {r : Record} {i : Instr} (hrun : s.status = .running)
    (hwf : Program.WellFormed s.memSize s.program) (hfetch : s.fetch = some r) (hdec : decode r = .ok i)
    (ht : exec i s.beginInstr = .next t) : step s = .next t.finish := by
  rw [step_running hrun hwf hfetch]
  simp [stepRecord, hdec, ht]

/-- A fetched record of a well-formed program decodes, and its handler completes. -/
theorem fetched_record_completes {s : State} {r : Record} (hwf : Program.WellFormed s.memSize s.program)
    (hfetch : s.fetch = some r) : ∃ i t, decode r = .ok i ∧ exec i s.beginInstr = .next t := by
  obtain ⟨i, hdec, hcheck⟩ :=
    Record.decode_of_failedCheck_eq_none (Program.wellFormed_iff.mp hwf r (State.mem_of_fetch hfetch))
  obtain ⟨t, ht⟩ := exec_completes (s := s.beginInstr) hcheck
  exact ⟨i, t, hdec, ht⟩

/-- The record is a size tag and these operands, the handler answered a next state, and the step is that state with
`ip` moved on unless the latch is set, whatever the latch after the step (R104 to R106). -/
def State.Ran (s : State) (r : Record) (operands : List Token) (outcome : Host.Outcome State Fault Refusal) : Prop :=
  r.ops.tail = operands ∧ r.ops.length = 1 + operands.length ∧
    ∃ t u, outcome = .next t ∧ step s = .next u ∧
      { u with jumped := false } = { t with jumped := false, ip := if t.jumped then t.ip else t.ip + 1 }

section
variable {s : State} {r : Record} {m : Mnemonic} (hrun : s.status = .running)
  (hwf : Program.WellFormed s.memSize s.program) (hfetch : s.fetch = some r) (hm : Mnemonic.ofText r.mnem = some m)
include hrun hwf hfetch hm

/-- A fetched record with a recognised mnemonic runs the instruction its operands decode to. -/
theorem ran_of_recognised : ∃ i args, decodeOperands m args = .ok i ∧ s.Ran r args (exec i s.beginInstr) := by
  obtain ⟨i, t, hdec, ht⟩ := fetched_record_completes hwf hfetch
  obtain ⟨tag, args, hops, hargs⟩ := decode_recognised hm hdec
  have hi : ∀ k, i ≠ .other k := by
    rintro k rfl
    obtain ⟨a, b, -, hcase⟩ | ⟨a, -, hcase⟩ := decodeOperands_cases hargs <;> simp at hcase
  have hstatus : t.status = .running := (exec_status hi ht).trans hrun
  exact ⟨i, args, hargs, by rw [hops, List.tail_cons], by rw [hops, List.length_cons, Nat.add_comm],
    t, t.finish, ht, step_of_exec hrun hwf hfetch hdec ht, State.finish_up_to_latch hstatus⟩

/-- A mnemonic of two operands has them in the record, and runs as the instruction they make. -/
theorem ran_of_two_operands {mk : Token → Token → Instr} (hcount : m.operandCount = 2)
    (hmk : ∀ a b, decodeOperands m [a, b] = .ok (mk a b)) : ∃ a b, s.Ran r [a, b] (exec (mk a b) s.beginInstr) := by
  obtain ⟨i, args, hargs, hran⟩ := ran_of_recognised hrun hwf hfetch hm
  obtain ⟨a, b, rfl, -⟩ | ⟨a, -, ⟨rfl, -⟩ | ⟨rfl, -⟩⟩ := decodeOperands_cases hargs
  · cases (hmk a b).symm.trans hargs
    exact ⟨a, b, hran⟩
  · cases hcount
  · cases hcount

/-- A mnemonic of one operand has it in the record, and runs as the instruction it makes. -/
theorem ran_of_one_operand {mk : Token → Instr} (hcount : m.operandCount = 1)
    (hmk : ∀ a, decodeOperands m [a] = .ok (mk a)) : ∃ a, s.Ran r [a] (exec (mk a) s.beginInstr) := by
  obtain ⟨i, args, hargs, hran⟩ := ran_of_recognised hrun hwf hfetch hm
  obtain ⟨a, b, -, ⟨rfl, -⟩ | ⟨rfl, -⟩ | ⟨rfl, -⟩ | ⟨rfl, -⟩⟩ | ⟨a, rfl, -⟩ := decodeOperands_cases hargs
  · cases hcount
  · cases hcount
  · cases hcount
  · cases hcount
  · cases (hmk a).symm.trans hargs
    exact ⟨a, hran⟩

end

end Sys2Proof.Machine
end

section
/-! SUPPORT. The statement about the whole step (40_sequencer.md R106). -/

namespace Sys2Proof.Proofs

open Sys2Proof.Machine

/-- Settles O2: where nothing is fetched the run ends, an unrecognised record halts it, and each recognised one runs
the handler of its mnemonic on the operands it holds. -/
theorem wholeStep : Obligations.WholeStep := by
  refine fun s hrun hwf => ⟨fun hout => ?outOfBounds, fun r hip hr => ?record⟩
  case outOfBounds =>
    have hfetch : s.fetch = none := State.fetch_eq_none.mpr fun ⟨hlo, hhi⟩ => by omega
    exact step_end hrun hwf hfetch
  case record =>
    have hfetch : s.fetch = some r := State.fetch_eq_some.mpr ⟨hip, hr⟩
    refine ⟨fun hmnem => ?unsupported, fun hmnem => ?mov, fun hmnem => ?add, fun hmnem => ?sub, fun hmnem => ?cmp,
      fun hmnem => ?jmp, fun hmnem => ?je⟩
    case unsupported =>
      have hstep := step_of_exec hrun hwf hfetch (decode_unrecognised hmnem) rfl
      rw [State.finish_of_halted (State.halt_status _ _)] at hstep
      exact ⟨_, hstep, rfl⟩
    case mov => exact ran_of_two_operands (m := .mov) hrun hwf hfetch (hmnem ▸ rfl) rfl fun _ _ => rfl
    case add => exact ran_of_two_operands (m := .add) hrun hwf hfetch (hmnem ▸ rfl) rfl fun _ _ => rfl
    case sub => exact ran_of_two_operands (m := .sub) hrun hwf hfetch (hmnem ▸ rfl) rfl fun _ _ => rfl
    case cmp => exact ran_of_two_operands (m := .cmp) hrun hwf hfetch (hmnem ▸ rfl) rfl fun _ _ => rfl
    case jmp => exact ran_of_one_operand (m := .jmp) hrun hwf hfetch (hmnem ▸ rfl) rfl fun _ => rfl
    case je => exact ran_of_one_operand (m := .je) hrun hwf hfetch (hmnem ▸ rfl) rfl fun _ => rfl

end Sys2Proof.Proofs
end

section
/-! SUPPORT. The step of a record whose handler leaves `ip` and the latch alone, from the handler's answer, and what the arithmetic handlers answer where their operands resolve (40_sequencer.md R104 to R106; 42_arithmetic.md R132 to R134). -/

namespace Sys2Proof

/-- Without a destination operand no check looks at the size of the memory (R82, R85). -/
theorem Instr.failedCheck_memSize_irrelevant {i : Instr} (h : i.destToken = none) (n m : Nat) :
    i.failedCheck n = i.failedCheck m := by
  simp only [Instr.failedCheck, h, Option.all_none]

end Sys2Proof

namespace Sys2Proof.Machine

theorem State.beginInstr_of_latch_clear {s : State} (h : s.jumped = false) : s.beginInstr = s := by
  simp only [State.beginInstr, ← h]

theorem State.advance_of_latch_clear {s : State} (h : s.jumped = false) : s.advance = { s with ip := s.ip + 1 } := by
  simp [State.advance, h]

section
variable {s : State} {i : Instr} {mnem : String} {operands : List Token}
  (hdec : ∀ opcode tag, decode { opcode := opcode, ops := tag :: operands, mnem := mnem } = .ok i)
include hdec

/-- The step of a record that decodes whatever its opcode byte and size tag is its handler's answer, finished. -/
theorem stepsTo_finish_of_exec {t : State} (hexec : exec i s = .next t) : s.StepsTo mnem operands t.finish := by
  intro opcode tag hrun hlatch hwf hip hr
  have hfetch := State.fetch_eq_some.mpr ⟨hip, hr⟩
  rw [← State.beginInstr_of_latch_clear hlatch] at hexec
  exact step_of_exec hrun hwf hfetch (hdec opcode tag) hexec

/-- Where the handler leaves the status and the latch alone, the step advances `ip` by one beside what it did
(R105). -/
theorem stepsTo_advance_of_exec {t : State} (hexec : exec i s = .next t) (hstatus : t.status = s.status)
    (hjumped : t.jumped = s.jumped) : s.StepsTo mnem operands { t with ip := t.ip + 1 } := by
  intro opcode tag hrun hlatch
  rw [← State.advance_of_latch_clear (hjumped.trans hlatch), ← State.finish_of_running (hstatus.trans hrun)]
  exact stepsTo_finish_of_exec hdec hexec opcode tag hrun hlatch

/-- A handler that writes flags and then stores `r` writes it to the register or the cell its index selects, and
nothing else; the step also advances `ip` (20_memory.md R53; R105). -/
theorem storing_result {f : Flags} {d r : Int} (hexec : exec i s = writeDest d r (s.setFlags f)) :
    (∀ k : Fin 8, d = k →
      exec i s = .next { s with flags := f, regs := s.regs.set k (BitVec.ofInt 32 r) } ∧
      s.StepsTo mnem operands { s with flags := f, regs := s.regs.set k (BitVec.ofInt 32 r), ip := s.ip + 1 }) ∧
    (∀ j : Nat, j < s.memSize → d = 8 + j →
      exec i s = .next { s with flags := f, mem := Memory.write s.mem j (BitVec.ofInt 8 r) } ∧
      s.StepsTo mnem operands
        { s with flags := f, mem := Memory.write s.mem j (BitVec.ofInt 8 r), ip := s.ip + 1 }) := by
  refine ⟨?register, ?cell⟩
  case register =>
    rintro k rfl
    have hnext := hexec.trans (writeDest_register (s.setFlags f) k r)
    exact ⟨hnext, stepsTo_advance_of_exec hdec hnext rfl rfl⟩
  case cell =>
    rintro j hj rfl
    have hnext := hexec.trans (writeDest_cell (s := s.setFlags f) hj r)
    exact ⟨hnext, stepsTo_advance_of_exec hdec hnext rfl rfl⟩

end

section
variable {s : State} {op1 op2 : Token} {a b d : Int} (ha : resolve s op1 = .next a) (hb : resolve s op2 = .next b)
include ha hb

theorem exec_add_of_resolve (hd : destIndex op2 = .next d) :
    exec (.add op1 op2) s = writeDest d (a + b) (s.setFlags (addFlags a b)) := by
  simp only [exec, execAdd, ha, hb, hd, Result.bind_next]

theorem exec_sub_of_resolve (hd : destIndex op2 = .next d) :
    exec (.sub op1 op2) s = writeDest d (a - b) (s.setFlags (subFlags a b)) := by
  simp only [exec, execSub, ha, hb, hd, Result.bind_next]

theorem exec_cmp_of_resolve : exec (.cmp op1 op2) s = .next (s.setFlags (cmpFlags s.flags a b)) := by
  simp only [exec, execCmp, ha, hb, Result.bind_next]

end

end Sys2Proof.Machine
end

section
/-! SUPPORT. The statements about arithmetic and comparison (42_arithmetic.md R132 to R134). -/

namespace Sys2Proof.Proofs

open Sys2Proof.Machine

/-- Settles O17: the handler writes its flags and stores the sum. -/
theorem addResult : Obligations.AddResult := by
  intro s op1 op2 a b d ha hb hd
  exact storing_result (fun _ _ => rfl) (exec_add_of_resolve ha hb hd)

/-- Settles O18: the handler writes its flags and stores the difference; carry and negative are one test. -/
theorem subResult : Obligations.SubResult := by
  intro s op1 op2 a b d ha hb hd
  obtain ⟨hregister, hcell⟩ :=
    storing_result (mnem := "sub") (operands := [op1, op2]) (fun _ _ => rfl) (exec_sub_of_resolve ha hb hd)
  exact ⟨hregister, hcell, rfl⟩

/-- Settles O19: the handler writes flags alone, and without a destination no check reads the memory size. -/
theorem cmpResult : Obligations.CmpResult := by
  refine ⟨fun s op1 op2 a b ha hb => ?_, fun op1 op2 => Instr.failedCheck_memSize_irrelevant rfl⟩
  have hexec := exec_cmp_of_resolve ha hb
  exact ⟨hexec, stepsTo_advance_of_exec (fun _ _ => rfl) hexec rfl rfl⟩

end Sys2Proof.Proofs
end

section
/-! SUPPORT. How a halted state reports and is classified, and the step that halts on an unrecognised record (60_exceptions.md R161, R164; 10_state.md R42). -/

namespace Sys2Proof.Machine

@[simp] theorem State.haltReport_halt_unsupported (s : State) (m : String) :
    (s.halt (.unsupported m)).haltReport = some m := rfl

@[simp] theorem State.verdict_halt_unsupported (s : State) (m : String) :
    (s.halt (.unsupported m)).verdict = .fault m := rfl

@[simp] theorem State.verdict_halt_endOfProgram (s : State) : (s.halt .endOfProgram).verdict = .success := rfl

theorem State.haltReport_of_endOfProgram {s : State} (h : s.status = .halted .endOfProgram) : s.haltReport = none := by
  simp only [State.haltReport, h]

/-- The fallback halts the state its handler is given, and the end of the step leaves a halted state alone: on a clear
latch the step is the halt and nothing else (R161). -/
theorem step_unrecognised {s : State} {r : Record} (hrun : s.status = .running) (hlatch : s.jumped = false)
    (hwf : Program.WellFormed s.memSize s.program) (hfetch : s.fetch = some r) (hmnem : r.mnem ∉ recognisedMnemonics) :
    step s = .next (s.halt (.unsupported r.mnem)) := by
  have hstep := step_of_exec hrun hwf hfetch (decode_unrecognised hmnem) rfl
  rwa [State.beginInstr_of_latch_clear hlatch, State.finish_of_halted (State.halt_status _ _)] at hstep

end Sys2Proof.Machine
end

section
/-! SUPPORT. The statements about the two ways a run halts (60_exceptions.md R161, R163, R164). -/

namespace Sys2Proof.Proofs

open Sys2Proof.Machine

/-- Settles O22: an unrecognised record decodes to the fallback, whose halt is the whole step, and the report and the
verdict are read off that halt. -/
theorem unsupportedHalts : Obligations.UnsupportedHalts := by
  refine ⟨fun s m => rfl, fun s r hrun hlatch hwf hip hr hmnem => ?record, fun s => State.haltReport_of_endOfProgram⟩
  case record =>
    have hfetch : s.fetch = some r := State.fetch_eq_some.mpr ⟨hip, hr⟩
    exact ⟨_, step_unrecognised hrun hlatch hwf hfetch hmnem, rfl, State.haltReport_halt_unsupported s r.mnem,
      State.verdict_halt_unsupported s r.mnem⟩

/-- Settles O23: the out-of-bounds case of the whole step is the normal end, and the verdict is read off that halt. -/
theorem outOfBoundsEndsNormally : Obligations.OutOfBoundsEndsNormally := by
  intro s hrun hwf hout
  obtain ⟨hend, -⟩ := wholeStep s hrun hwf
  exact ⟨_, hend hout, rfl, State.verdict_halt_endOfProgram s⟩

end Sys2Proof.Proofs
end

section
/-! SUPPORT. The strings of the six mnemonics, and the record a decoded instruction came from (30_encoding.md R72, R82, R87). -/

namespace Sys2Proof

/-- The string of a mnemonic (R72). -/
def Mnemonic.text : Mnemonic → String
  | .mov => "mov"
  | .add => "add"
  | .sub => "sub"
  | .cmp => "cmp"
  | .jmp => "jmp"
  | .je => "je"

/-- Each mnemonic is recognised by its own string and by no other (R72). -/
theorem Mnemonic.ofText_eq_some {s : String} {m : Mnemonic} : Mnemonic.ofText s = some m ↔ s = m.text := by
  constructor
  · intro h
    unfold Mnemonic.ofText at h
    split_ifs at h with hs hs hs hs hs hs <;> cases h <;> exact hs
  · rintro rfl
    cases m <;> rfl

/-- The strings that name a mnemonic are the six. -/
theorem mem_recognisedMnemonics {s : String} : s ∈ recognisedMnemonics ↔ ∃ m : Mnemonic, s = m.text := by
  rw [← not_iff_not, ← Mnemonic.ofText_eq_none, Option.eq_none_iff_forall_not_mem, not_exists]
  simp only [Option.mem_def, Mnemonic.ofText_eq_some]

@[simp] theorem Instr.mnemonicOk_other {m : String} :
    (Instr.other m).mnemonicOk = true ↔ m ∉ recognisedMnemonics := by
  simp [Instr.mnemonicOk]

/-- The instruction of a recognised mnemonic has the record it was decoded from, whatever its opcode byte and size
tag. -/
theorem encode_of_decodeOperands {m : Mnemonic} {args : List Token} {i : Instr} (h : decodeOperands m args = .ok i)
    (opcode : Byte) (tag : Token) : encode opcode tag i = { opcode := opcode, ops := tag :: args, mnem := m.text } := by
  obtain ⟨a, b, rfl, hcase⟩ | ⟨a, rfl, hcase⟩ := decodeOperands_cases h
  · obtain ⟨rfl, rfl⟩ | ⟨rfl, rfl⟩ | ⟨rfl, rfl⟩ | ⟨rfl, rfl⟩ := hcase <;> rfl
  · obtain ⟨rfl, rfl⟩ | ⟨rfl, rfl⟩ := hcase <;> rfl

/-- A recognised mnemonic never decodes to the fallback, so its instruction has a mnemonic it may carry. -/
theorem mnemonicOk_of_decodeOperands {m : Mnemonic} {args : List Token} {i : Instr}
    (h : decodeOperands m args = .ok i) : i.mnemonicOk = true := by
  obtain ⟨a, b, -, hcase⟩ | ⟨a, -, hcase⟩ := decodeOperands_cases h
  · obtain ⟨-, rfl⟩ | ⟨-, rfl⟩ | ⟨-, rfl⟩ | ⟨-, rfl⟩ := hcase <;> rfl
  · obtain ⟨-, rfl⟩ | ⟨-, rfl⟩ := hcase <;> rfl

end Sys2Proof
end

section
/-! SUPPORT. The statements about decoding and encoding records (30_encoding.md sections 1, 3 and 5). -/

namespace Sys2Proof.Proofs

/-- Settles O4, one case per constructor: the six decode by computing, and the fallback because its mnemonic is none of
the six. -/
theorem decodeOfEncode : Obligations.DecodeOfEncode := by
  rintro n opcode tag i ⟨-, hmnem⟩
  cases i with
  | mov a b => rfl
  | add a b => rfl
  | sub a b => rfl
  | cmp a b => rfl
  | jmp a => rfl
  | je a => rfl
  | other m => exact decode_unrecognised (Instr.mnemonicOk_other.mp hmnem)

/-- Settles O5, by the two ways a record decodes. -/
theorem encodeOfDecode : Obligations.EncodeOfDecode := by
  intro r i h
  obtain ⟨hnone, rfl⟩ | ⟨m, tag, args, hm, hops, hargs⟩ := decode_cases h
  · have hmnem := Mnemonic.ofText_eq_none.mp hnone
    exact ⟨Instr.mnemonicOk_other.mpr hmnem, fun hmem => absurd hmem hmnem, fun _ => rfl⟩
  · rw [Mnemonic.ofText_eq_some] at hm
    refine ⟨mnemonicOk_of_decodeOperands hargs, fun _ => ⟨tag, by rw [hops]; rfl, ?_⟩, fun hmem => ?_⟩
    · rw [encode_of_decodeOperands hargs, ← hops, ← hm]
    · exact absurd (mem_recognisedMnemonics.mpr ⟨m, hm⟩) hmem

/-- Settles O3: ten records, each decoded by computing. -/
theorem specRecordsDecode : Obligations.SpecRecordsDecode := by
  unfold Obligations.SpecRecordsDecode
  decide

end Sys2Proof.Proofs
end

section
/-! SUPPORT. When a step answers a next state, what every step keeps, and runs that stay where they are (40_sequencer.md R106 to R108; 30_encoding.md R86). -/

namespace Sys2Proof

/-- A record that decodes to the fallback has its mnemonic, which is none of the six (R102). -/
theorem mnem_of_decode_other {r : Record} {m : String} (h : decode r = .ok (.other m)) :
    r.mnem = m ∧ m ∉ recognisedMnemonics := by
  obtain ⟨hnone, hi⟩ | ⟨_, _, _, -, -, hargs⟩ := decode_cases h
  · cases hi
    exact ⟨rfl, Mnemonic.ofText_eq_none.mp hnone⟩
  · obtain ⟨a, b, -, hcase⟩ | ⟨a, -, hcase⟩ := decodeOperands_cases hargs <;> simp at hcase

end Sys2Proof

namespace Sys2Proof.Machine

/-- In a well-formed program a step always answers a next state (R103, R107). -/
theorem step_completes {s : State} (hwf : Program.WellFormed s.memSize s.program) : ∃ t, step s = .next t := by
  cases hs : s.status with
  | halted c => exact ⟨s, step_halted hs⟩
  | running =>
    cases hf : s.fetch with
    | none => exact ⟨_, step_end hs hwf hf⟩
    | some r =>
      obtain ⟨i, t, hdec, ht⟩ := fetched_record_completes hwf hf
      exact ⟨_, step_of_exec hs hwf hf hdec ht⟩

/-- A running state steps exactly where its program is well-formed (R86). -/
theorem step_completes_iff {s : State} (hrun : s.status = .running) :
    (∃ t, step s = .next t) ↔ Program.WellFormed s.memSize s.program := by
  refine ⟨fun ⟨t, ht⟩ => ?_, step_completes⟩
  obtain ⟨c, hc, -⟩ | ⟨-, hwf, -⟩ := step_cases ht
  · cases hrun.symm.trans hc
  · exact hwf

/-- A running state whose program is not well-formed is refused by the first record that fails a check (R86, log 9). -/
theorem step_refuses_first_defect {s : State} (hrun : s.status = .running)
    (h : ¬ Program.WellFormed s.memSize s.program) :
    ∃ k c r, step s = .refused (.illFormedProgram k c) ∧ s.program[k]? = some r ∧
      r.failedCheck s.memSize = some c ∧
      ∀ j q, j < k → s.program[j]? = some q → q.failedCheck s.memSize = none := by
  obtain ⟨k, c, r, hdefect, hr, hfails, hfirst⟩ := Program.defect_of_not_wellFormed h
  exact ⟨k, c, r, step_refused hrun hdefect, hr, hfails, hfirst⟩

theorem step_ne_fault {s : State} {e : Fault} : step s ≠ .fault e := by
  intro h
  by_cases hwf : Program.WellFormed s.memSize s.program
  · obtain ⟨t, ht⟩ := step_completes hwf
    cases ht.symm.trans h
  · cases hs : s.status with
    | halted c => cases (step_halted hs).symm.trans h
    | running =>
      obtain ⟨k, c, r, href, -⟩ := step_refuses_first_defect hs hwf
      cases href.symm.trans h

theorem exec_memSize {i : Instr} {s t : State} (h : exec i s = .next t) : t.memSize = s.memSize := by
  obtain ⟨f, d, v, hw⟩ | ⟨f, rfl⟩ | ⟨v, rfl⟩ | rfl | ⟨m, -, rfl⟩ := exec_cases h
  · obtain ⟨-, -, -, -, -, hsize⟩ := writeDest_frame hw
    exact hsize
  · rfl
  · rfl
  · rfl
  · rfl

theorem step_memSize {s t : State} (h : step s = .next t) : t.memSize = s.memSize := by
  obtain ⟨_, -, rfl⟩ | ⟨-, -, ⟨-, rfl⟩ | ⟨r, i, u, -, -, hu, rfl⟩⟩ := step_cases h
  · rfl
  · rfl
  · simpa using exec_memSize hu

/-- A run takes its first step and goes on from there. -/
theorem run_succ_of_step {k : Nat} {s u t : State} (hu : step s = .next u) (ht : Sys2Proof.core.run k u = .next t) :
    Sys2Proof.core.run (k + 1) s = .next t := by
  rw [run_succ, hu]
  exact ht

/-- A run of a well-formed program has every number of steps, all of them over that program and that memory size. -/
theorem run_completes (k : Nat) {s : State} (hwf : Program.WellFormed s.memSize s.program) :
    ∃ t, Sys2Proof.core.run k s = .next t ∧ t.program = s.program ∧ t.memSize = s.memSize := by
  induction k generalizing s with
  | zero => exact ⟨s, rfl, rfl, rfl⟩
  | succ k ih =>
    obtain ⟨u, hu⟩ := step_completes hwf
    have hp := step_program hu
    have hn := step_memSize hu
    obtain ⟨t, ht, htp, htn⟩ := ih (s := u) (by rw [hp, hn]; exact hwf)
    exact ⟨t, run_succ_of_step hu ht, htp.trans hp, htn.trans hn⟩

/-- A state that steps to itself is where every run from it ends. -/
theorem run_of_fixed {s : State} (h : step s = .next s) (k : Nat) : Sys2Proof.core.run k s = .next s := by
  induction k with
  | zero => rfl
  | succ k ih => exact run_succ_of_step h ih

/-- The end of the step of a taken jump is the state before it with `ip` at the target (R105, R150). -/
theorem State.finish_jumpTo {s : State} {v : Int} (hrun : s.status = .running) (hlatch : s.jumped = false) :
    (s.jumpTo v).finish = { s with ip := v } := by
  have hjump : (s.jumpTo v).status = .running := hrun
  rw [State.finish_of_running hjump]
  simp [State.advance, State.jumpTo, ← hlatch]

/-- The handler of a je, whichever way it goes (R151). -/
theorem exec_je_of_resolve {s : State} {a : Token} {v : Int} (hv : resolve s a = .next v) :
    exec (.je a) s = .next (if s.flags.zf then s.jumpTo v else s) := by
  simp only [exec, execJe, hv, Result.bind_next]

/-- A handler that jumps where its operand resolves answers the jump: a `jmp`, or a `je` on a set zero flag (R150,
R151). -/
theorem exec_taken_jump {s : State} {i : Instr} {a : Token} {v : Int}
    (hi : i = .jmp a ∨ i = .je a ∧ s.flags.zf = true) (hv : resolve s a = .next v) :
    exec i s = .next (s.jumpTo v) := by
  obtain rfl | ⟨rfl, hz⟩ := hi
  · simp only [exec, execJmp, hv, Result.bind_next]
  · rw [exec_je_of_resolve hv, if_pos hz]

/-- A taken jump to the record's own index steps to the state itself (R109). -/
theorem step_self_jump {s : State} {r : Record} {i : Instr} {a : Token} (hrun : s.status = .running)
    (hlatch : s.jumped = false) (hwf : Program.WellFormed s.memSize s.program) (hfetch : s.fetch = some r)
    (hdec : decode r = .ok i) (hi : i = .jmp a ∨ i = .je a ∧ s.flags.zf = true) (hself : resolve s a = .next s.ip) :
    step s = .next s := by
  have hexec : exec i s.beginInstr = .next (s.jumpTo s.ip) := by
    rw [State.beginInstr_of_latch_clear hlatch]
    exact exec_taken_jump hi hself
  rw [step_of_exec hrun hwf hfetch hdec hexec, State.finish_jumpTo hrun hlatch]

end Sys2Proof.Machine
end

section
/-! SUPPORT. The statements about which steps and runs have a next state (40_sequencer.md sections 1 and 2; 60_exceptions.md section 1). -/

namespace Sys2Proof.Proofs

open Sys2Proof.Machine

/-- Settles O37, by induction on the number of steps: each completes and keeps what makes the next one complete. -/
theorem wellFormedRunNeverStops : Obligations.WellFormedRunNeverStops :=
  fun k _ hwf => run_completes k hwf

/-- Settles O36: every operand resolves and every store has a place. -/
theorem wellFormedInstructionCompletes : Obligations.WellFormedInstructionCompletes :=
  fun _ _ => exec_completes

/-- Settles O35: a well-formed program steps, one that is not is refused by its first defect, and neither is a
fault. -/
theorem noFaultAndRefusalOnlyOfIllFormed : Obligations.NoFaultAndRefusalOnlyOfIllFormed := by
  exact fun s => ⟨fun _ => step_ne_fault, fun hrun => ⟨step_completes_iff hrun, step_refuses_first_defect hrun⟩,
    fun c hc => ⟨s, step_halted hc⟩⟩

/-- Settles O39: a halted state steps to itself. -/
theorem haltedStateIsFinal : Obligations.HaltedStateIsFinal :=
  fun k _ _ hc => run_of_fixed (step_halted hc) k

/-- Settles O40: a taken jump to the record's own index steps to the state itself. -/
theorem selfJumpNeverEnds : Obligations.SelfJumpNeverEnds := by
  intro k s r a hrun hlatch hwf hip hr hdec hself
  have hfetch := State.fetch_eq_some.mpr ⟨hip, hr⟩
  refine run_of_fixed ?_ k
  obtain hdec | ⟨hdec, hz⟩ := hdec
  · exact step_self_jump hrun hlatch hwf hfetch hdec (.inl rfl) hself
  · exact step_self_jump hrun hlatch hwf hfetch hdec (.inr ⟨rfl, hz⟩) hself

/-- Settles O1: the fetched record completes, and the step is its answer at the end of the step. -/
theorem stepRunsDecodedInstruction : Obligations.StepRunsDecodedInstruction := by
  intro s r i hrun hwf hip hr hdec
  have hfetch := State.fetch_eq_some.mpr ⟨hip, hr⟩
  obtain ⟨j, t, hj, ht⟩ := fetched_record_completes hwf hfetch
  cases hj.symm.trans hdec
  refine ⟨t, ht, (step_of_exec hrun hwf hfetch hdec ht).trans ?_⟩
  obtain ⟨regs, mem, memSize, flags, ip, status, jumped, program⟩ := t
  cases status <;> rfl

/-- Settles O48: the loaded program is the one record of the word, which passes its checks and is fetched first. -/
theorem tableWordRunsAsDecoded : Obligations.TableWordRunsAsDecoded := by
  intro s t nbits w i hword hcheck ht
  have hdec : decode (tableRecord nbits w) = .ok i := by
    unfold decodeTableWord at hword
    split at hword
    · cases hword; assumption
    · cases hword
  have hwf : Program.WellFormed s.memSize [tableRecord nbits w] := by
    simp [Program.wellFormed_iff, Record.failedCheck, hdec, hcheck]
  exact ⟨rfl, rfl, step_of_exec (s := s.withFetchWord nbits w) rfl hwf rfl hdec ht⟩

end Sys2Proof.Proofs
end

section
/-! SUPPORT. The invariants of the state, phase by phase of a step (20_memory.md R50; 10_state.md R33, R34; 40_sequencer.md R101, R102). -/

namespace Sys2Proof.Machine

/-- The memory part of the invariant: canonical, and no cell listed outside `[0, MEM_SIZE)` (R50, log 4). -/
def State.MemInv (s : State) : Prop := Memory.wf s.mem = true ∧ Memory.within s.memSize s.mem = true

theorem writeDest_memInv {d v : Int} {s t : State} (hs : s.MemInv) (h : writeDest d v s = .next t) : t.MemInv := by
  obtain ⟨hwf, hwithin⟩ := hs
  obtain ⟨i, -, rfl⟩ | ⟨j, hj, -, rfl⟩ := writeDest_cases h
  · exact ⟨hwf, hwithin⟩
  · exact ⟨Memory.wf_write hwf, Memory.within_write hj hwithin⟩

theorem exec_memInv {i : Instr} {s t : State} (hs : s.MemInv) (h : exec i s = .next t) : t.MemInv := by
  obtain ⟨f, d, v, hw⟩ | ⟨f, rfl⟩ | ⟨v, rfl⟩ | rfl | ⟨m, -, rfl⟩ := exec_cases h
  · exact writeDest_memInv (s := s.setFlags f) hs hw
  · exact hs
  · exact hs
  · exact hs
  · exact hs

theorem State.MemInv.finish {s : State} (h : s.MemInv) : s.finish.MemInv := by
  simpa [State.MemInv] using h

/-- The end of a step leaves a clear latch clear; only the advance of a running state clears a set one. -/
theorem State.finish_jumped_of_clear {s : State} (h : s.jumped = false) : s.finish.jumped = false := by
  cases hs : s.status with
  | running => rw [State.finish_of_running hs, State.advance_jumped]
  | halted c => rwa [State.finish_of_halted hs]

/-- A handler that sets the latch leaves the run running, so the end of the step clears it (R34, R105). -/
theorem exec_finish_jumped {i : Instr} {s t : State} (hrun : s.status = .running) (hlatch : s.jumped = false)
    (h : exec i s = .next t) : t.finish.jumped = false := by
  obtain ⟨a, v, -, -, rfl⟩ | ⟨-, hj⟩ := exec_jump_or_keep_ip h
  · have hjump : (s.jumpTo v).status = .running := hrun
    rw [State.finish_of_running hjump, State.advance_jumped]
  · exact State.finish_jumped_of_clear (hj.trans hlatch)

theorem step_inv {s t : State} (hs : s.Inv) (h : step s = .next t) : t.Inv := by
  obtain ⟨hwf, hwithin, hlatch⟩ := hs
  obtain ⟨_, -, rfl⟩ | ⟨hrun, -, ⟨-, rfl⟩ | ⟨r, i, u, -, -, hu, rfl⟩⟩ := step_cases h
  · exact ⟨hwf, hwithin, hlatch⟩
  · exact ⟨hwf, hwithin, hlatch⟩
  · have hmem : u.MemInv := exec_memInv (s := s.beginInstr) ⟨hwf, hwithin⟩ hu
    obtain ⟨hwf', hwithin'⟩ := hmem.finish
    exact ⟨hwf', hwithin', exec_finish_jumped (s := s.beginInstr) hrun rfl hu⟩

theorem State.statusInv_of_running {s : State} (h : s.status = .running) : s.StatusInv := by
  simp only [State.StatusInv, h]

/-- Halting where nothing is fetched tells the truth (R101). -/
theorem State.statusInv_halt_endOfProgram {s : State} (h : s.fetch = none) : (s.halt .endOfProgram).StatusInv :=
  State.fetch_eq_none.mp h

/-- Halting on the fetched record's unrecognised mnemonic tells the truth (R102). -/
theorem State.statusInv_halt_unsupported {s : State} {r : Record} (hf : s.fetch = some r)
    (hm : r.mnem ∉ recognisedMnemonics) : (s.halt (.unsupported r.mnem)).StatusInv :=
  ⟨r, hf, rfl, hm⟩

/-- After the handler of a fetched record the run is running or has halted truthfully on that record. -/
theorem exec_finish_statusInv {s t : State} {r : Record} {i : Instr} (hrun : s.status = .running)
    (hf : s.fetch = some r) (hdec : decode r = .ok i) (h : exec i s.beginInstr = .next t) : t.finish.StatusInv := by
  by_cases hother : ∃ m, i = .other m
  · obtain ⟨m, rfl⟩ := hother
    obtain ⟨rfl, hmnem⟩ := mnem_of_decode_other hdec
    obtain rfl := execOther_cases h
    rw [State.finish_of_halted (State.halt_status _ _)]
    exact State.statusInv_halt_unsupported (s := s.beginInstr) hf hmnem
  · have ht := exec_status (fun m hi => hother ⟨m, hi⟩) h
    exact State.statusInv_of_running (by rw [State.finish_status, ht, State.beginInstr_status, hrun])

theorem step_statusInv {s t : State} (hs : s.StatusInv) (h : step s = .next t) : t.StatusInv := by
  obtain ⟨_, -, rfl⟩ | ⟨hrun, -, ⟨hf, rfl⟩ | ⟨r, i, u, hf, hdec, hu, rfl⟩⟩ := step_cases h
  · exact hs
  · exact State.statusInv_halt_endOfProgram hf
  · exact exec_finish_statusInv hrun hf hdec hu

end Sys2Proof.Machine
end

section
/-! SUPPORT. The statements about the start of a run and about what every step keeps true of the state (10_state.md sections 5 and 9; 20_memory.md section 1; 70_reset_and_hazards.md section 1). -/

namespace Sys2Proof.Proofs

open Sys2Proof.Machine

/-- Settles O44: the store keeps the memory's form, and the end of a step clears the latch. -/
theorem stepKeepsInvariant : Obligations.StepKeepsInvariant :=
  fun _ _ => step_inv

/-- Settles O46: a start is running, and each step that halts does so where `status` says. -/
theorem stepKeepsStatusTruthful : Obligations.StepKeepsStatusTruthful :=
  ⟨fun _ _ _ => State.statusInv_of_running rfl, fun _ _ _ => run_invariant fun _ _ => step_statusInv⟩

/-- Settles O45: the seed is all that is asked of a start, and the seed of reset lists no cell. -/
theorem startMeetsInvariant : Obligations.StartMeetsInvariant :=
  ⟨⟨rfl, rfl, rfl⟩, fun _ _ _ hwf hwithin => ⟨hwf, hwithin, rfl⟩⟩

/-- Settles O47: the fields are the seed's, and the first step of an empty program is the normal end. -/
theorem startOfRun : Obligations.StartOfRun :=
  fun _ _ _ => ⟨rfl, rfl, rfl, rfl, rfl, rfl, rfl, step_end rfl rfl rfl⟩

end Sys2Proof.Proofs
end

section
/-! SUPPORT. Two more parts that no step reads: the memory's contents, and the opcode bytes and size tags of the program (20_memory.md R52; 30_encoding.md R71, R73). -/

namespace Sys2Proof.Machine

theorem State.AgreeExceptMem.exists {s u : State} (h : s.AgreeExceptMem u) : ∃ m, u = { s with mem := m } :=
  ⟨u.mem, h.symm⟩

theorem State.finish_withMem (s : State) (m : Memory) :
    { s with mem := m }.finish = { s.finish with mem := m } := by
  obtain ⟨regs, mem, memSize, flags, ip, status, jumped, program⟩ := s
  cases status with
  | running => cases jumped <;> rfl
  | halted c => rfl

theorem agreeExceptMem_kept : KeptByPhases State.AgreeExceptMem where
  regs h := by obtain ⟨m, rfl⟩ := h.exists; rfl
  memSize h := by obtain ⟨m, rfl⟩ := h.exists; rfl
  writeReg h i w := by obtain ⟨m, rfl⟩ := h.exists; rfl
  writeMem h j v := by obtain ⟨m, rfl⟩ := h.exists; rfl
  setFlags h f := by obtain ⟨m, rfl⟩ := h.exists; rfl
  setCmpFlags h a b := by obtain ⟨m, rfl⟩ := h.exists; rfl
  jumpTo h v := by obtain ⟨m, rfl⟩ := h.exists; rfl
  halt h c := by obtain ⟨m, rfl⟩ := h.exists; rfl
  zf h := by obtain ⟨m, rfl⟩ := h.exists; rfl
  status h := by obtain ⟨m, rfl⟩ := h.exists; rfl
  ip h := by obtain ⟨m, rfl⟩ := h.exists; rfl
  program h := by obtain ⟨m, rfl⟩ := h.exists; rfl
  beginInstr h := by obtain ⟨m, rfl⟩ := h.exists; rfl
  finish {s u} h := by
    obtain ⟨m, rfl⟩ := h.exists
    rw [State.finish_withMem s m]
    rfl

/-! A step reads of the program what its records decode to, and programs that differ in ignored fields only decode
alike, record by record. -/

theorem Program.AgreeExceptIgnored.map_decode {p q : Program} (h : Program.AgreeExceptIgnored p q) :
    p.map decode = q.map decode := by
  induction h with
  | nil => rfl
  | cons hr _ ih => rw [List.map_cons, List.map_cons, ih, decode_of_agreeExceptIgnored hr]

/-- Whether a program is refused, and why, is read off the decoded records. -/
theorem defect_congr_of_map_decode {n : Nat} {p q : Program} (h : p.map decode = q.map decode) :
    Program.defect n p = Program.defect n q := by
  suffices hfrom : ∀ k, Program.defectFrom n k p = Program.defectFrom n k q from hfrom 0
  induction p generalizing q with
  | nil =>
    obtain rfl : q = [] := by simpa using h.symm
    exact fun _ => rfl
  | cons r p ih =>
    obtain ⟨r', q, rfl, hr, hq⟩ := List.map_eq_cons_iff.mp h.symm
    exact fun k => by simp only [Program.defectFrom, Record.failedCheck, hr, ih hq.symm]

/-- The states are equal but for the program, which is `p` in the one and `q` in the other. -/
def State.SameButProgram (p q : Program) (s u : State) : Prop := { s with program := q } = u ∧ s.program = p

theorem State.finish_withProgram (s : State) (p : Program) :
    { s with program := p }.finish = { s.finish with program := p } := by
  obtain ⟨regs, mem, memSize, flags, ip, status, jumped, program⟩ := s
  cases status with
  | running => cases jumped <;> rfl
  | halted c => rfl

theorem sameButProgram_kept (p q : Program) : KeptByUpdates (State.SameButProgram p q) where
  regs := by rintro s _ ⟨rfl, -⟩; rfl
  memSize := by rintro s _ ⟨rfl, -⟩; rfl
  writeReg := by rintro s _ ⟨rfl, hp⟩ i w; exact ⟨rfl, hp⟩
  writeMem := by rintro s _ ⟨rfl, hp⟩ j v; exact ⟨rfl, hp⟩
  setFlags := by rintro s _ ⟨rfl, hp⟩ f; exact ⟨rfl, hp⟩
  setCmpFlags := by rintro s _ ⟨rfl, hp⟩ a b; exact ⟨rfl, hp⟩
  jumpTo := by rintro s _ ⟨rfl, hp⟩ v; exact ⟨rfl, hp⟩
  halt := by rintro s _ ⟨rfl, hp⟩ c; exact ⟨rfl, hp⟩

section
variable {p q : Program} {s u : State}

theorem State.SameButProgram.finish (h : s.SameButProgram p q u) : s.finish.SameButProgram p q u.finish := by
  obtain ⟨rfl, hp⟩ := h
  exact ⟨(State.finish_withProgram s q).symm, by rw [State.finish_program, hp]⟩

/-- Over programs that decode alike the records fetched decode alike, or there is none on either side. -/
theorem State.SameButProgram.map_decode_fetch (h : s.SameButProgram p q u) (hpq : p.map decode = q.map decode) :
    s.fetch.map decode = u.fetch.map decode := by
  obtain ⟨rfl, rfl⟩ := h
  unfold State.fetch
  split
  · rfl
  · rw [← List.getElem?_map, ← List.getElem?_map, hpq]

/-- Records that decode alike run alike. -/
theorem State.SameButProgram.stepRecord (h : s.SameButProgram p q u) {r r' : Record} (hr : decode r = decode r') :
    Result.Related (State.SameButProgram p q) (stepRecord s r) (stepRecord u r') := by
  obtain ⟨rfl, hp⟩ := h
  unfold Machine.stepRecord
  rw [hr]
  cases decode r' with
  | ok i =>
    have hbegin : s.beginInstr.SameButProgram p q { s with program := q }.beginInstr := ⟨rfl, hp⟩
    exact ((sameButProgram_kept p q).exec hbegin fun _ _ => rfl).bind fun _ _ => State.SameButProgram.finish
  | error c => rfl

theorem State.SameButProgram.status (h : s.SameButProgram p q u) : s.status = u.status := by
  obtain ⟨rfl, -⟩ := h
  rfl

/-- Programs that decode alike are refused alike. -/
theorem State.SameButProgram.defect (h : s.SameButProgram p q u) (hpq : p.map decode = q.map decode) :
    Program.defect s.memSize s.program = Program.defect u.memSize u.program := by
  obtain ⟨rfl, rfl⟩ := h
  exact defect_congr_of_map_decode hpq

theorem State.SameButProgram.step (h : s.SameButProgram p q u) (hpq : p.map decode = q.map decode) :
    Result.Related (State.SameButProgram p q) (step s) (step u) := by
  have hfetch := h.map_decode_fetch hpq
  have hdefect := h.defect hpq
  cases hs : s.status with
  | halted c =>
    rw [step_halted hs, step_halted (h.status ▸ hs)]
    exact h
  | running =>
    have hu : u.status = .running := h.status ▸ hs
    cases hd : Program.defect s.memSize s.program with
    | some e =>
      rw [step_refused hs hd, step_refused hu (hdefect.symm.trans hd)]
      rfl
    | none =>
      have hwf : Program.WellFormed u.memSize u.program := hdefect.symm.trans hd
      cases hf : s.fetch with
      | none =>
        rw [hf, Option.map_none, eq_comm, Option.map_eq_none_iff] at hfetch
        rw [step_end hs hd hf, step_end hu hwf hfetch]
        exact (sameButProgram_kept p q).halt h _
      | some r =>
        rw [hf, Option.map_some, eq_comm, Option.map_eq_some_iff] at hfetch
        obtain ⟨r', hf', hr⟩ := hfetch
        rw [step_running hs hd hf, step_running hu hwf hf']
        exact h.stepRecord hr.symm

theorem State.SameButProgram.run (k : Nat) (h : s.SameButProgram p q u) (hpq : p.map decode = q.map decode) :
    Result.Related (State.SameButProgram p q) (Sys2Proof.core.run k s) (Sys2Proof.core.run k u) := by
  induction k generalizing s u with
  | zero => exact h
  | succ k ih =>
    rw [run_succ, run_succ]
    exact (h.step hpq).bind fun _ _ => ih

end

end Sys2Proof.Machine
end

section
/-! SUPPORT. The statements about what never reaches a run's result (20_memory.md sections 1 and 4; 30_encoding.md section 1). -/

namespace Sys2Proof.Proofs

open Sys2Proof.Machine

/-- Settles O41: agreement but for the memory is kept by every handler and every phase of a step, so by every run. -/
theorem memoryHasNoInfluence : Obligations.MemoryHasNoInfluence :=
  fun k _ _ h => agreeExceptMem_kept.run k h

/-- Settles O43: programs that differ in ignored fields only decode alike, and a run reads no more of a program. -/
theorem ignoredFieldsHaveNoInfluence : Obligations.IgnoredFieldsHaveNoInfluence := by
  intro k s p h
  have hstart : s.SameButProgram s.program p { s with program := p } := ⟨rfl, rfl⟩
  exact hstart.run k h.map_decode

end Sys2Proof.Proofs
end

section
/-! SUPPORT. The store primitive further: the values it stores, what it leaves of the memory, and storing again (20_memory.md R51, R53, R58). -/

namespace Sys2Proof.Machine

/-- A stored value is reduced to its width (R53). -/
theorem toNat_ofInt_eq_emod (w : Nat) (v : Int) : ((BitVec.ofInt w v).toNat : Int) = v % 2 ^ w := by
  rw [BitVec.toNat_ofInt, Int.toNat_of_nonneg (Int.emod_nonneg _ (by positivity))]
  norm_cast

theorem State.writeReg_regs_same (s : State) (i : Fin 8) (w : Word) : (s.writeReg i w).regs[i] = w :=
  Vector.getElem_set_self i.isLt

/-- An index that selects neither a register nor a cell faults (R51, log 10). -/
theorem writeDest_outside {d v : Int} {s : State} (h : d < 0 ∨ 8 + (s.memSize : Int) ≤ d) :
    writeDest d v s = .fault (.noSuchDestination d) := by
  unfold writeDest
  rw [dif_neg (by omega), if_neg (by omega)]

/-- The store primitive changes no cell but the one its index selects; no form is asked of the memory. -/
theorem writeDest_cells_other {d v : Int} {s t : State} {a : Nat} (h : writeDest d v s = .next t) (ha : d ≠ 8 + a) :
    Memory.read t.mem a = Memory.read s.mem a := by
  obtain ⟨i, -, rfl⟩ | ⟨j, -, rfl, rfl⟩ := writeDest_cases h
  · rfl
  · have hja : j ≠ a := by omega
    exact Memory.read_write_other hja

/-- Writing the same byte to the same cell again changes nothing. -/
theorem Memory.write_write_same {m : Memory} (hm : Memory.wf m = true) (j : Nat) (v : Byte) :
    Memory.write (Memory.write m j v) j v = Memory.write m j v := by
  have hm' : Memory.wf (Memory.write m j v) = true := Memory.wf_write hm
  refine Memory.ext_of_wf (Memory.wf_write hm') hm' fun k => ?_
  by_cases hk : j = k
  · subst hk
    rw [Memory.read_write_same hm', Memory.read_write_same hm]
  · rw [Memory.read_write_other hk]

theorem State.writeReg_writeReg_same (s : State) (i : Fin 8) (w : Word) :
    (s.writeReg i w).writeReg i w = s.writeReg i w := by
  simp only [State.writeReg, Vector.set_set]

theorem State.writeMem_writeMem_same {s : State} (hm : Memory.wf s.mem = true) (j : Nat) (v : Byte) :
    (s.writeMem j v).writeMem j v = s.writeMem j v := by
  simp only [State.writeMem, Memory.write_write_same hm]

end Sys2Proof.Machine
end

section
/-! SUPPORT. The statements about the store primitive and about what the handlers leave unchanged (20_memory.md sections 1 and 2; 41_data_movement.md; 42_arithmetic.md section 2; 43_control_transfer.md). -/

namespace Sys2Proof.Proofs

open Sys2Proof.Machine

/-- Settles O13, by the three places an index can select: a register, a cell, or none. -/
theorem storePrimitive : Obligations.StorePrimitive := by
  refine fun s v => ⟨fun i => ?register, fun j hj hm => ?cell, fun d => writeDest_outside⟩
  case register =>
    have hstore := writeDest_register s i v
    refine ⟨_, hstore, rfl, ?_, fun k hk => writeDest_regs_other hstore (by omega)⟩
    rw [State.writeReg_regs_same, toNat_ofInt_eq_emod]
  case cell =>
    have hstore := writeDest_cell hj v
    refine ⟨_, hstore, rfl, Memory.wf_write hm, ?_, fun k hk => writeDest_cells_other hstore (by omega)⟩
    rw [State.writeMem_mem, Memory.read_write_same hm, toNat_ofInt_eq_emod]

/-- Settles O14: the second store finds the value already there. -/
theorem storeTwiceIsStoreOnce : Obligations.StoreTwiceIsStoreOnce := by
  intro s t d v hm h
  obtain ⟨i, rfl, rfl⟩ | ⟨j, hj, rfl, rfl⟩ := writeDest_cases h
  · rw [writeDest_register, State.writeReg_writeReg_same]
  · rw [writeDest_cell (s := s.writeMem j _) hj, State.writeMem_writeMem_same hm]

/-- Settles O25: a storing handler makes one store where its second operand says, and a mov writes no flag. -/
theorem storingFrame : Obligations.StoringFrame := by
  intro s t op1 op2 i hi h
  obtain ⟨f, d, v, hd, hw⟩ := exec_storing (destToken_eq_some.mpr ⟨op1, hi⟩) h
  obtain ⟨-, hip, hstatus, hjumped, hprogram, hsize⟩ := writeDest_frame hw
  obtain ⟨-, -, hmov, -, -⟩ := flagWriters s t i h
  exact ⟨d, hd, fun _ => writeDest_regs_other (s := s.setFlags f) hw,
    fun _ => writeDest_cells_other (s := s.setFlags f) hw, hip, hstatus, hjumped, hprogram,
    hsize, hmov op1 op2⟩

/-- Settles O26, one case per constructor without a destination; a je by whether it is taken. -/
theorem nonStoringFrame : Obligations.NonStoringFrame := by
  intro s t i hn h
  cases i with
  | mov a b => cases hn
  | add a b => cases hn
  | sub a b => cases hn
  | cmp a b =>
    obtain ⟨v, w, -, -, rfl⟩ := execCmp_cases h
    simp [cmpFlags]
  | jmp a =>
    obtain ⟨v, -, rfl⟩ := execJmp_cases h
    simp
  | je a =>
    obtain ⟨v, -, ⟨hz, rfl⟩ | ⟨-, rfl⟩⟩ := execJe_cases h
    · simp [hz]
    · simp
  | other m =>
    obtain rfl := execOther_cases h
    simp

end Sys2Proof.Proofs
end

section
/-! SUPPORT. What the storing handlers answer where the destination is a register, and the flags of two words (30_encoding.md R80; 41_data_movement.md R120; 42_arithmetic.md R132 to R135). -/

namespace Sys2Proof.Machine

@[simp] theorem destIndex_reg (i : Fin 8) : destIndex (.reg i) = .next (i : Int) := by
  simp [destIndex, destOf, regOk]

@[simp] theorem destIndex_num (v : Int) : destIndex (.num v) = .next v := rfl

theorem exec_mov_of_resolve {s : State} {op1 op2 : Token} {v d : Int} (hv : resolve s op1 = .next v)
    (hd : destIndex op2 = .next d) : exec (.mov op1 op2) s = writeDest d v s := by
  simp only [exec, execMov, hv, hd, Result.bind_next]

section
variable {s : State} {op1 : Token} {a : Int} (ha : resolve s op1 = .next a) (j : Fin 8)
include ha

theorem exec_mov_register : exec (.mov op1 (.reg j)) s = .next (s.writeReg j (BitVec.ofInt 32 a)) := by
  rw [exec_mov_of_resolve ha (destIndex_reg j), writeDest_register]

theorem exec_add_register : exec (.add op1 (.reg j)) s =
    .next ((s.setFlags (addFlags a s.regs[j].toNat)).writeReg j (BitVec.ofInt 32 (a + s.regs[j].toNat))) := by
  rw [exec_add_of_resolve ha (resolve_reg s j) (destIndex_reg j), writeDest_register]

theorem exec_sub_register : exec (.sub op1 (.reg j)) s =
    .next ((s.setFlags (subFlags a s.regs[j].toNat)).writeReg j (BitVec.ofInt 32 (a - s.regs[j].toNat))) := by
  rw [exec_sub_of_resolve ha (resolve_reg s j) (destIndex_reg j), writeDest_register]

end

/-! A word stored again is the word, and the exact sum and difference of two words are stored wrapped. -/

theorem ofInt_toNat (x : Word) : BitVec.ofInt 32 (x.toNat : Int) = x := by
  simp

theorem ofInt_toNat_add (x y : Word) : BitVec.ofInt 32 ((x.toNat : Int) + y.toNat) = x + y := by
  rw [BitVec.ofInt_add, ofInt_toNat, ofInt_toNat]

theorem ofInt_toNat_sub (x y : Word) : BitVec.ofInt 32 ((x.toNat : Int) - y.toNat) = x - y := by
  rw [Int.sub_eq_add_neg, BitVec.ofInt_add, BitVec.ofInt_neg, ofInt_toNat, ofInt_toNat, BitVec.sub_eq_add_neg]

/-- The flags of the sum of two words: they are never negative, and sum to 0 only where both are 0 (R135). -/
theorem addFlags_words (x y : Word) :
    ((addFlags x.toNat y.toNat).cf = true ↔ 2 ^ 32 ≤ x.toNat + y.toNat) ∧
    ((addFlags x.toNat y.toNat).zf = true ↔ x = 0 ∧ y = 0) ∧ (addFlags x.toNat y.toNat).nf = false := by
  simp only [addFlags, decide_eq_true_eq, decide_eq_false_iff_not, BitVec.toNat_eq, BitVec.ofNat_eq_ofNat,
    BitVec.toNat_ofNat]
  omega

/-- The flags of the difference of two words are the unsigned comparison (R135). -/
theorem subFlags_words (x y : Word) :
    ((subFlags x.toNat y.toNat).cf = true ↔ x < y) ∧ ((subFlags x.toNat y.toNat).nf = true ↔ x < y) ∧
    ((subFlags x.toNat y.toNat).zf = true ↔ x = y) := by
  simp only [subFlags, decide_eq_true_eq, BitVec.lt_def, BitVec.toNat_eq]
  omega

/-- A byte stored from a word is its low 8 bits (R53). -/
theorem ofInt_toNat_byte (x : Word) : BitVec.ofInt 8 (x.toNat : Int) = x.setWidth 8 := by
  simp

end Sys2Proof.Machine
end

section
/-! SUPPORT. The statements about destinations, moves and register arithmetic (30_encoding.md section 2; 41_data_movement.md; 42_arithmetic.md; 70_reset_and_hazards.md section 2; 95_test_vectors.md S1, S2). -/

namespace Sys2Proof.Proofs

open Sys2Proof.Machine

/-- Settles O11: a register reference by its bound, each literal through its value. -/
theorem destIndexByTokenShape : Obligations.DestIndexByTokenShape := by
  refine ⟨destIndex_reg, destIndex_num, fun h n hn => ?hex, fun w v hv => ?text⟩
  case hex => exact destIndex_eq_next.mpr ⟨by simp [destOf, literalValue, hn], rfl⟩
  case text => exact destIndex_eq_next.mpr ⟨by simp [destOf, literalValue, hv], rfl⟩

/-- Settles O16: the handler is the store, with the flags as they were. -/
theorem movResult : Obligations.MovResult := by
  intro s op1 op2 v d hv hd
  exact storing_result (f := s.flags) (fun _ _ => rfl) (exec_mov_of_resolve hv hd)

/-- Settles O15: the moved value is read back reduced, and the other registers are not the one the move selects. -/
theorem registersReadBackLastWrite : Obligations.RegistersReadBackLastWrite := by
  intro s op v i hv
  refine ⟨_, exec_mov_register hv i, ?_, fun k hk => ?_⟩
  · rw [resolve_reg, State.writeReg_regs_same, toNat_ofInt_eq_emod]
  · rw [resolve_reg, resolve_reg, writeDest_regs_other (writeDest_register s i v) (by omega)]

/-- Settles O34: the register reads back by the store of a word, the cell by the store of its low byte. -/
theorem movThenReadBack : Obligations.MovThenReadBack := by
  refine fun s i => ⟨fun j => ?register, fun j hj hm => ?cell⟩
  case register =>
    refine ⟨_, exec_mov_register (resolve_reg s i) j, ?_⟩
    rw [State.writeReg_regs_same, ofInt_toNat]
  case cell =>
    have hexec : exec (.mov (.reg i) (.num (8 + j))) s = .next (s.writeMem j (s.regs[i].setWidth 8)) := by
      rw [exec_mov_of_resolve (resolve_reg s i) (destIndex_num _), writeDest_cell hj, ofInt_toNat_byte]
    refine ⟨_, s.regs[i].setWidth 8, hexec, ?_, rfl, fun hsmall => ?_⟩
    · simp [State.readMem, hj, Memory.read_write_same hm]
    · rw [BitVec.toNat_setWidth, Nat.mod_eq_of_lt hsmall]

/-- Settles O30: the stored words wrap, and the flags are those of two words. -/
theorem registerArithmeticLaws : Obligations.RegisterArithmeticLaws := by
  intro s i j
  have hi := resolve_reg s i
  refine ⟨⟨_, exec_add_register hi j, ?_, addFlags_words _ _⟩, ⟨_, exec_sub_register hi j, ?_, subFlags_words _ _⟩,
    ⟨_, exec_cmp_of_resolve hi (resolve_reg s j), subFlags_words _ _⟩⟩
  · rw [State.writeReg_regs, ofInt_toNat_add, State.setFlags_regs]
  · rw [State.writeReg_regs, ofInt_toNat_sub, State.setFlags_regs]

/-- Settles O31: the laws of two registers, taken for one, and the store of a register's own word. -/
theorem sourceAndDestinationOverlap : Obligations.SourceAndDestinationOverlap := by
  intro s i
  obtain ⟨⟨t, hadd, hsum, -⟩, ⟨u, hsub, hdiff, hcf, hnf, hzf⟩, -⟩ := registerArithmeticLaws s i i
  refine ⟨⟨t, hadd, ?add⟩, ⟨u, hsub, ?sub, hzf.mpr rfl, ?cf, ?nf⟩, ?mov⟩
  case add => rw [hsum, ← BitVec.two_mul]; rfl
  case sub => rw [hdiff, BitVec.sub_self]; rfl
  case cf => simpa using hcf
  case nf => simpa using hnf
  case mov =>
    rw [exec_mov_register (resolve_reg s i), ofInt_toNat]
    simp [State.writeReg]

/-- Settles O32: the add compares the exact sum with 0, and the cmp the sum as the register holds it. -/
theorem addThenCmpWithZero : Obligations.AddThenCmpWithZero := by
  intro s op1 a j ha
  refine ⟨_, _, exec_add_register ha j, exec_cmp_of_resolve (resolve_reg _ j) (resolve_of_literalValue rfl), ?_, ?_⟩
  · exact decide_eq_true_iff
  · rw [State.writeReg_regs_same, toNat_ofInt_eq_emod]
    simp [cmpFlags]

end Sys2Proof.Proofs
end

section
/-! SUPPORT. The steps of a comparison, of a taken jump and of a je, the step where `ip` has left the program, and what the checks and the open parameters leave of the exact values (40_sequencer.md R101, R105; 42_arithmetic.md R130, R131; 43_control_transfer.md R150, R151). -/

namespace Sys2Proof.Machine

/-- The step of a record whose handler takes a jump moves `ip` to the target and nothing else. -/
theorem stepsTo_jump_of_exec {s : State} {i : Instr} {mnem : String} {operands : List Token} {v : Int}
    (hdec : ∀ opcode tag, decode { opcode := opcode, ops := tag :: operands, mnem := mnem } = .ok i)
    (hexec : exec i s = .next (s.jumpTo v)) : s.StepsTo mnem operands { s with ip := v } := by
  intro opcode tag hrun hlatch
  rw [← State.finish_jumpTo hrun hlatch]
  exact stepsTo_finish_of_exec hdec hexec opcode tag hrun hlatch

/-- Where `ip` has left the program the step is the normal end, `ip` as it is (R101). -/
theorem step_out_of_bounds {s : State} (hout : s.ip < 0 ∨ (s.program.length : Int) ≤ s.ip)
    (hrun : s.status = .running) (hwf : Program.WellFormed s.memSize s.program) :
    step s = .next (s.halt .endOfProgram) :=
  step_end hrun hwf (State.fetch_eq_none.mpr fun ⟨hlo, hhi⟩ => by omega)

section
variable {s : State} {r : Record} (hrun : s.status = .running) (hwf : Program.WellFormed s.memSize s.program)
  (hfetch : s.fetch = some r)
include hrun hwf hfetch

/-- The step of a fetched cmp writes the flags and advances, whatever the latch before it. -/
theorem step_cmp {op1 op2 : Token} {a b : Int} (hdec : decode r = .ok (.cmp op1 op2))
    (ha : resolve s op1 = .next a) (hb : resolve s op2 = .next b) :
    step s = .next { s with flags := cmpFlags s.flags a b, ip := s.ip + 1, jumped := false } := by
  have hexec : exec (.cmp op1 op2) s.beginInstr = .next (s.beginInstr.setFlags (cmpFlags s.flags a b)) :=
    exec_cmp_of_resolve ha hb
  have hstatus : (s.beginInstr.setFlags (cmpFlags s.flags a b)).status = .running := hrun
  rw [step_of_exec hrun hwf hfetch hdec hexec, State.finish_of_running hstatus, State.advance_of_latch_clear rfl]
  rfl

/-- The step of a fetched je goes to its target or to the next record, by the zero flag, whatever the latch before
it. -/
theorem step_je {op : Token} {v : Int} (hdec : decode r = .ok (.je op)) (hv : resolve s op = .next v) :
    step s = .next { s with ip := if s.flags.zf then v else s.ip + 1, jumped := false } := by
  have hbegin : s.beginInstr.status = .running := hrun
  rw [step_of_exec hrun hwf hfetch hdec (exec_je_of_resolve (s := s.beginInstr) hv), State.beginInstr_flags]
  split
  · rw [State.finish_jumpTo hbegin rfl]
    rfl
  · rw [State.finish_of_running hbegin, State.advance_of_latch_clear rfl]
    rfl

end

/-- An operand that passes WF-imm resolves inside the literal range, which holds every word too (R84, R130). -/
theorem resolve_range {s : State} {t : Token} {v : Int} (himm : immOk t = true) (h : resolve s t = .next v) :
    -2 ^ 31 ≤ v ∧ v ≤ 2 ^ 32 - 1 := by
  obtain ⟨i, -, rfl⟩ | hlit := resolve_cases h
  · have hword := s.regs[i].isLt
    omega
  · simpa [immOk, hlit, immInRange] using himm

/-- An operand that passes its checks resolves, inside the literal range. -/
theorem resolve_of_checks (s : State) {t : Token} (h : tokenOk t = true ∧ regOk t = true ∧ immOk t = true) :
    ∃ v, resolve s t = .next v ∧ -2 ^ 31 ≤ v ∧ v ≤ 2 ^ 32 - 1 := by
  obtain ⟨htok, hreg, himm⟩ := h
  obtain ⟨v, hv⟩ := resolve_of_ok s htok hreg
  exact ⟨v, hv, resolve_range himm hv⟩

/-- The model's sign is the library's (log 8). -/
theorem signOf_congr {a b : Int} (h : a.sign = b.sign) : signOf a = signOf b := by
  have hneg : a < 0 ↔ b < 0 := by rw [← Int.sign_eq_neg_one_iff_neg, h, Int.sign_eq_neg_one_iff_neg]
  have hzero : a = 0 ↔ b = 0 := by rw [← Int.sign_eq_zero_iff_zero, h, Int.sign_eq_zero_iff_zero]
  simp only [signOf, hneg, hzero]

end Sys2Proof.Machine
end

section
/-! SUPPORT. The statements about control transfer, the range of exact results and the overflow parameters (42_arithmetic.md section 1; 43_control_transfer.md; 95_test_vectors.md S4). -/

namespace Sys2Proof.Proofs

open Sys2Proof.Machine

/-- Settles O20: the jump is taken, and beyond the program the next step is the normal end. -/
theorem jmpResult : Obligations.JmpResult := by
  intro s op1 v hv
  have hexec : exec (.jmp op1) s = .next (s.jumpTo v) := exec_taken_jump (.inl rfl) hv
  exact ⟨hexec, stepsTo_jump_of_exec (fun _ _ => rfl) hexec, step_out_of_bounds (s := { s with ip := v })⟩

/-- Settles O21, by the zero flag: as a jmp, or as a handler that does nothing. -/
theorem jeResult : Obligations.JeResult := by
  refine fun s op1 v hv => ⟨fun hz => ?taken, fun hz => ?untaken⟩
  case taken =>
    have hexec : exec (.je op1) s = .next (s.jumpTo v) := exec_taken_jump (.inr ⟨rfl, hz⟩) hv
    exact ⟨hexec, stepsTo_jump_of_exec (fun _ _ => rfl) hexec, step_out_of_bounds (s := { s with ip := v })⟩
  case untaken =>
    have hexec : exec (.je op1) s = .next s := by simp [exec_je_of_resolve hv, hz]
    exact ⟨hexec, stepsTo_advance_of_exec (fun _ _ => rfl) hexec rfl rfl⟩

/-- Settles O33: the cmp leaves the registers and sets the zero flag the je goes by. -/
theorem cmpThenJe : Obligations.CmpThenJe := by
  intro s r q op1 op2 op3 a b c hrun hwf hip hr hq hcmp hje ha hb hc
  have hnext : (s.ip + 1).toNat = s.ip.toNat + 1 := by omega
  have hfirst := step_cmp hrun hwf (State.fetch_eq_some.mpr ⟨hip, hr⟩) hcmp ha hb
  have hsecond := step_je (s := { s with flags := cmpFlags s.flags a b, ip := s.ip + 1, jumped := false }) hrun hwf
    (State.fetch_eq_some.mpr ⟨by simp only; omega, by simp only [hnext, hq]⟩) hje hc
  refine ⟨_, run_succ_of_step hfirst (run_succ_of_step hsecond rfl), ?ip, rfl, rfl, rfl, hrun⟩
  simp [cmpFlags, sub_eq_zero, add_assoc]

/-- Settles O12: both operands lie in the literal range, so the exact results lie in twice its width. -/
theorem exactResultsStayInRange : Obligations.ExactResultsStayInRange := by
  intro s i op1 op2 hi hcheck
  obtain ⟨hops, -⟩ := Instr.failedCheck_eq_none.mp hcheck
  have hoperands : i.operands = [op1, op2] := by obtain rfl | rfl | rfl := hi <;> rfl
  obtain ⟨a, ha, halo, hahi⟩ := resolve_of_checks s (hops op1 (by simp [hoperands]))
  obtain ⟨b, hb, hblo, hbhi⟩ := resolve_of_checks s (hops op2 (by simp [hoperands]))
  exact ⟨a, b, ha, hb, halo, hahi, hblo, hbhi, by omega, by omega, by omega, by omega⟩

/-- Settles O24: the parameters are given the signs of their arguments. -/
theorem overflowDependsOnSigns : Obligations.OverflowDependsOnSigns := by
  intro a b r a' b' r' ha hb hr
  simp only [overflowAdd, overflowSub, signOf_congr ha, signOf_congr hb, signOf_congr hr, and_self]

end Sys2Proof.Proofs
end

section
/-! SUPPORT. What the program check asks of one record, mnemonic by mnemonic, and the reader of signed decimals (30_encoding.md R78, R82, R84, R85). -/

namespace Sys2Proof

/-- The mnemonics whose second operand has a destination role (R82). -/
def Mnemonic.hasDest : Mnemonic → Bool
  | .mov | .add | .sub => true
  | .cmp | .jmp | .je => false

theorem Mnemonic.operandCount_of_hasDest {m : Mnemonic} (h : m.hasDest = true) : m.operandCount = 2 := by
  cases m with
  | mov | add | sub => rfl
  | cmp | jmp | je => cases h

theorem Mnemonic.operandCount_eq (m : Mnemonic) : m.operandCount = 2 ∨ m.operandCount = 1 := by
  cases m <;> decide

/-- A recognised mnemonic decodes where it has as many operands as it takes. -/
theorem decodeOperands_of_length {m : Mnemonic} {args : List Token} (h : args.length = m.operandCount) :
    ∃ i, decodeOperands m args = .ok i := by
  cases m with
  | mov | add | sub | cmp =>
    obtain ⟨a, b, rfl⟩ := List.length_eq_two.mp h
    exact ⟨_, rfl⟩
  | jmp | je =>
    obtain ⟨a, rfl⟩ := List.length_eq_one_iff.mp h
    exact ⟨_, rfl⟩

/-- The decoded instruction has these operands, as many as its mnemonic takes, the second as destination where the
mnemonic has one. -/
theorem operands_of_decodeOperands {m : Mnemonic} {args : List Token} {i : Instr} (h : decodeOperands m args = .ok i) :
    args.length = m.operandCount ∧ i.operands = args ∧ i.destToken = if m.hasDest then args[1]? else none := by
  obtain ⟨a, b, rfl, hcase⟩ | ⟨a, rfl, hcase⟩ := decodeOperands_cases h
  · obtain ⟨rfl, rfl⟩ | ⟨rfl, rfl⟩ | ⟨rfl, rfl⟩ | ⟨rfl, rfl⟩ := hcase <;> exact ⟨rfl, rfl, rfl⟩
  · obtain ⟨rfl, rfl⟩ | ⟨rfl, rfl⟩ := hcase <;> exact ⟨rfl, rfl, rfl⟩

/-- A record with an unrecognised mnemonic is exempt from every check (R85). -/
theorem Record.failedCheck_of_unrecognised {n : Nat} {r : Record} (h : r.mnem ∉ recognisedMnemonics) :
    r.failedCheck n = none := by
  rw [Record.failedCheck, decode_unrecognised h]
  rfl

/-- A record with a recognised mnemonic passes where it has a size tag, the operands its mnemonic takes, each of them
passes the operand checks, and the destination passes WF-dest (R85). -/
theorem Record.failedCheck_of_recognised {n : Nat} {r : Record} {m : Mnemonic} (hm : Mnemonic.ofText r.mnem = some m) :
    r.failedCheck n = none ↔ ∃ tag args, r.ops = tag :: args ∧ args.length = m.operandCount ∧
      (∀ t ∈ args, tokenOk t = true ∧ regOk t = true ∧ immOk t = true) ∧
      (m.hasDest = true → ∃ t, args[1]? = some t ∧ destOk n t = true) := by
  constructor
  · intro h
    obtain ⟨i, hdec, hcheck⟩ := Record.decode_of_failedCheck_eq_none h
    obtain ⟨tag, args, hops, hargs⟩ := decode_recognised hm hdec
    obtain ⟨hlen, hoperands, hdest⟩ := operands_of_decodeOperands hargs
    obtain ⟨htokens, hstore⟩ := Instr.failedCheck_eq_none.mp hcheck
    refine ⟨tag, args, hops, hlen, hoperands ▸ htokens, fun hd => ?_⟩
    obtain ⟨a, b, rfl⟩ := List.length_eq_two.mp (hlen.trans (Mnemonic.operandCount_of_hasDest hd))
    exact ⟨b, rfl, hstore b (by rw [hdest, if_pos hd]; rfl)⟩
  · rintro ⟨tag, args, hops, hlen, htokens, hstore⟩
    obtain ⟨i, hargs⟩ := decodeOperands_of_length hlen
    obtain ⟨-, hoperands, hdest⟩ := operands_of_decodeOperands hargs
    have hdec : decode r = .ok i := by simp only [decode, hm, hops, hargs]
    rw [Record.failedCheck, hdec]
    refine Instr.failedCheck_eq_none.mpr ⟨hoperands ▸ htokens, fun t ht => ?_⟩
    rw [hdest] at ht
    split at ht
    · obtain ⟨t', ht', hok⟩ := hstore ‹_›
      cases ht.symm.trans ht'
      exact hok
    · cases ht

/-- WF-token, WF-reg and WF-imm, shape by shape (R84, R85). -/
theorem tokenChecks_iff {t : Token} :
    (tokenOk t = true ∧ regOk t = true ∧ immOk t = true) ↔
      (∀ h, t = .hex h → ∃ v, hexValue h = some v) ∧ (∀ w, t = .text w → ∃ v, decValue w = some v) ∧
      (∀ i, t = .reg i → i < 8) ∧ (∀ v, literalValue t = some v → -2 ^ 31 ≤ v ∧ v ≤ 2 ^ 32 - 1) := by
  have himm : immOk t = true ↔ ∀ v, literalValue t = some v → -2 ^ 31 ≤ v ∧ v ≤ 2 ^ 32 - 1 := by
    cases hv : literalValue t <;> simp [immOk, hv, immInRange]
  rw [himm]
  cases t with
  | num v => simp [tokenOk, regOk]
  | reg i => simp [tokenOk, regOk]
  | hex h => simp [tokenOk, regOk, Option.isSome_iff_exists]
  | text w => simp [tokenOk, regOk, Option.isSome_iff_exists]

theorem destOk_iff {n : Nat} {t : Token} : destOk n t = true ↔ ∃ d, destOf t = some d ∧ 0 ≤ d ∧ d < 8 + n := by
  cases hd : destOf t <;> simp [destOk, hd, destInSpace]

/-- The three lists of R82 and R85 by what they say of a mnemonic. -/
theorem Mnemonic.text_mem_lists (m : Mnemonic) :
    (m.text ∈ ["mov", "add", "sub", "cmp"] ↔ m.operandCount = 2) ∧
    (m.text ∈ ["jmp", "je"] ↔ m.operandCount = 1) ∧ (m.text ∈ ["mov", "add", "sub"] ↔ m.hasDest = true) := by
  cases m <;> decide

/-- The worth of a decimal digit is its place among the ten. -/
theorem decDigit_eq_some {c : Char} {d : Nat} :
    decDigit c = some d ↔ ['0', '1', '2', '3', '4', '5', '6', '7', '8', '9'][d]? = some c := by
  constructor
  · intro h
    unfold decDigit at h
    split_ifs at h with hdec
    cases h
    obtain ⟨k, hk : k ≤ 9, rfl⟩ := char_eq_ofNat_of_range hdec
    interval_cases k <;> decide
  · intro h
    obtain ⟨hd, rfl⟩ := List.getElem?_eq_some_iff.mp h
    clear h
    decide +revert

/-- A sign is no digit, so a numeral without a sign is read as it stands. -/
theorem decValueChars_of_numeral {cs : List Char} {n : Nat} (h : numeral 10 decDigit cs = some n) :
    decValueChars cs = some (n : Int) := by
  unfold decValueChars
  split
  · cases h
  · cases h
  · rw [h, Option.map_some]

/-- The reader of signed decimals takes an optional sign off and reads a numeral (R78). -/
theorem decValueChars_eq_some {cs : List Char} {v : Int} :
    decValueChars cs = some v ↔
      ∃ (sign digits : List Char) (n : Nat), cs = sign ++ digits ∧ (sign = [] ∨ sign = ['+'] ∨ sign = ['-']) ∧
        numeral 10 decDigit digits = some n ∧ v = if sign = ['-'] then -(n : Int) else (n : Int) := by
  constructor
  · intro h
    unfold decValueChars at h
    split at h <;> obtain ⟨n, hn, rfl⟩ := Option.map_eq_some_iff.mp h
    · exact ⟨['-'], _, n, rfl, by simp, hn, by simp⟩
    · exact ⟨['+'], _, n, rfl, by simp, hn, by simp⟩
    · exact ⟨[], _, n, rfl, by simp, hn, by simp⟩
  · rintro ⟨_, digits, n, rfl, rfl | rfl | rfl, hn, rfl⟩
    · exact decValueChars_of_numeral hn
    · simp [decValueChars, hn]
    · simp [decValueChars, hn]

end Sys2Proof
end

section
/-! SUPPORT. The statements about well-formed programs and about the values of decimal texts (30_encoding.md sections 2 and 4). -/

namespace Sys2Proof.Proofs

open Sys2Proof.Machine

/-- Settles O6, record by record: exempt without one of the six mnemonics, and with one by the size tag, the number of
operands, the operands and the destination. -/
theorem wellFormedProgramMeans : Obligations.WellFormedProgramMeans := by
  refine fun n p => Program.wellFormed_iff.trans (forall₂_congr fun r _ => ?_)
  by_cases hmem : r.mnem ∈ recognisedMnemonics
  · obtain ⟨m, hm⟩ := mem_recognisedMnemonics.mp hmem
    obtain ⟨htwo, hone, hdest⟩ := m.text_mem_lists
    refine Iff.trans ?_ (imp_iff_right hmem).symm
    rw [Record.failedCheck_of_recognised (Mnemonic.ofText_eq_some.mpr hm), hm, htwo, hone, hdest]
    simp only [tokenChecks_iff, destOk_iff]
    cases r.ops with
    | nil => simp
    | cons tag args =>
      have hlen : args.length = m.operandCount ↔ (m.operandCount = 2 → args.length + 1 = 3) ∧
          (m.operandCount = 1 → args.length + 1 = 2) := by
        have := m.operandCount_eq
        omega
      simp [hlen, and_assoc]
  · exact iff_of_true (Record.failedCheck_of_unrecognised hmem) fun h => absurd h hmem

/-- Settles O9: the sign, and the reader of numerals with the worth of a digit as its place among the ten. -/
theorem decValueIsSignedDecimal : Obligations.DecValueIsSignedDecimal := by
  intro cs v
  simp only [decValue, String.toList_ofList, decValueChars_eq_some, numeral_eq_some, decDigit_eq_some]
  constructor
  · rintro ⟨sign, digits, _, hcs, hsign, ⟨hne, ds, hds, rfl⟩, hv⟩
    exact ⟨sign, digits, ds, hcs, hsign, hne, hds, hv⟩
  · rintro ⟨sign, digits, ds, hcs, hsign, hne, hds, hv⟩
    exact ⟨sign, digits, _, hcs, hsign, ⟨hne, ds, hds, rfl⟩, hv⟩

end Sys2Proof.Proofs
end
